-- ==== Sys2Proof/Word.lean ====
section
/-! DEFINITION. The machine word: the unsigned 8-bit value of registers, memory cells and operand bytes
(00_scope.md R6, R20; 20_memory.md R50). -/

namespace Sys2Proof

/-- One byte: `CELL_BITS = XLEN = 8` (00_scope.md R5). Every register, cell and operand is one. -/
abbrev Byte := BitVec 8

end Sys2Proof
end

