-- ==== Sys2Proof/Config.lean ====
section
/-! DEFINITION. The parameters of the CORE (00_scope.md R5) and the one value the spec leaves open.
The opcode map `OPC` is `opcodeByte` in Decode.lean and the flag encoding `FL_ENC` is `Flags.encoding` in
Machine/Flags.lean, because a definition there can be mended later. -/

namespace Sys2Proof.Config

/-- `MEM_SIZE`: number of memory cells, addresses 0..255 (R5, R50). -/
abbrev memSize : Nat := 256

/-- `NREGS`: number of general registers, indices 0..7 (R5, R20). -/
abbrev nregs : Nat := 8

/-- `SP_INDEX`: the register that is the stack pointer (R5, R21). -/
abbrev spIndex : Fin nregs := 7

/-- `SP_RESET`: reset value of the stack pointer, and POP's "empty" sentinel (R5, R21, R152). -/
abbrev spReset : Byte := 0xF4#8

/-- `PC_RESET`: reset value of the program counter (R5, R24). -/
abbrev pcReset : Nat := 0

/-- `LOAD_BASE`: address of the first loaded byte (R5, R222). -/
abbrev loadBase : Nat := 0

/-- `REG_RESET`: reset value of registers 0..6 (R5, R23). UNVERIFIED: the spec's decision D3, log 2; unsafe. -/
abbrev regReset : Byte := 0x00#8

/-- `MEM_RESET`: what a cell nothing has written reads as (R5, R31). UNVERIFIED: the spec's decision D4, log 3;
unsafe. -/
abbrev memReset : Byte := 0x00#8

/-- The open part of `EXIT_FATAL` (R5, R198, decision D19, log 13): any natural number. A value with no body, so
nothing can be proved of it. -/
opaque exitFatalLessOne : Nat

/-- `EXIT_FATAL`: the exit status of a fatal fault other than UnknownOpcode, any non-zero value (R198). -/
def exitFatal : Nat := exitFatalLessOne + 1

end Sys2Proof.Config
end

