-- ==== Sys2Proof/Machine/State.lean ====
section
/-! DEFINITION. The state of the machine (10_state.md), as plain data: the tuple (x, pc, fl, M, run, out), its
reset value, and the reasons a step of the model stops. -/

namespace Sys2Proof.Machine

/-- The index of a general register, 0..7 (R8, R20). -/
abbrev RegIdx := Fin Config.nregs

/-- The flags register: exactly one of four states (R26). -/
inductive Flags where
  | unset | equal | greaterThan | lessThan
deriving DecidableEq, Repr

/-- A fatal fault: the kind and what it records (60_exceptions.md R185). -/
inductive FatalFault where
  /-- An ALU operation outside the fixed set: no instruction raises it (R139, R190). -/
  | unsupportedAluOperation
  /-- The fetched opcode byte and its address (R187). -/
  | unknownOpcode (op : Byte) (addr : Nat)
  /-- The pc of the DIV (R189). -/
  | divisionByZero (pc : Nat)
  /-- The offending address or stack-pointer value, and the pc (R186). -/
  | outOfRangeAddress (v : Int) (pc : Nat)
  /-- The operand byte and the pc (R188). -/
  | invalidRegisterIndex (b : Byte) (pc : Nat)
deriving DecidableEq, Repr

/-- A report on the output sequence (R30). -/
inductive Report where
  | stackFull
  | stackEmpty
  | unknownOpcode (op : Byte) (addr : Nat)
  | haltNotice
deriving DecidableEq, Repr

/-- An event of the output sequence (R30). -/
inductive Event where
  | prn (v : Byte)
  | report (r : Report)
deriving DecidableEq, Repr

/-- The run state (R29). `halted` and `faulted` are terminal. -/
inductive RunState where
  | running
  | halted
  | faulted (f : FatalFault)
deriving DecidableEq, Repr

/-- Memory as (address, byte) pairs in one canonical form, `Memory.wf`; an address not listed reads as
`Config.memReset` (R31, R50). -/
abbrev Memory := List Host.Cell

/-- The whole state of the machine (10_state.md, head; R32 to R34). -/
structure State where
  /-- `x[0]` to `x[7]`; `x[7]` is the stack pointer (R20, R21). -/
  regs : Vector Byte Config.nregs
  /-- The program counter, a non-negative integer that does not wrap (R24, R25). -/
  pc : Nat
  /-- The flags register (R26). -/
  fl : Flags
  /-- `M[0..255]` (R31). -/
  mem : Memory
  /-- The run state (R29). -/
  run : RunState
  /-- The output sequence, oldest event first (R30). -/
  out : List Event
deriving DecidableEq, Repr

/-- The machine right after reset, before the loader acts (R35, R220): no cell of memory written. -/
def State.reset : State where
  regs := (Vector.replicate Config.nregs Config.regReset).set Config.spIndex Config.spReset
  pc := Config.pcReset
  fl := .unset
  mem := []
  run := .running
  out := []

/-- The canonical form of memory: addresses strictly rising and inside the address space, and no entry equal to
what an unlisted address reads as. -/
abbrev Memory.wf (m : Memory) : Prop :=
  (m.map Prod.fst).Pairwise (· < ·) ∧ ∀ c ∈ m, c.1 < Config.memSize ∧ c.2 ≠ Config.memReset

/-- Why no step exists. A fatal fault of the CORE is not one of these: it is a next state with
`run = faulted` (R194, log 5). -/
inductive Fault where
  /-- `step`, in a machine that HLT has halted: no step exists there (R29, R110). Safe: nothing happens. -/
  | noStepHalted
  /-- `step`, in a machine that a fatal fault has ended: no step exists there (R110, R195). Safe: nothing
  happens. -/
  | noStepFaulted
deriving DecidableEq, Repr

/-- What the model gives no meaning to. -/
inductive Refusal where
  /-- An arm of `exec` with no meaning yet; no arm raises it. Safe: the machine stops. -/
  | notModelled (mnemonic : String)
  /-- `boot`, given an image longer than memory: a refused launch (R222, decision D16). Safe: nothing runs. -/
  | imageTooLong (n : Nat)
deriving DecidableEq, Repr

end Sys2Proof.Machine
end

