-- ==== Sys2Proof/Machine/Flags.lean ====
section
/-! DEFINITION. The flags register: the outcome of a comparison, the branch conditions that read it, and its
binary encoding for a trace. -/

namespace Sys2Proof.Machine

/-- The three-way unsigned comparison of regA's value with regB's (R135). -/
def compareFlags (va vb : Byte) : Flags :=
  if va = vb then .equal
  else if vb.toNat < va.toNat then .greaterThan
  else .lessThan

/-- JEQ's condition: exactly Equal (R171, R174). -/
def Flags.takesJeq (f : Flags) : Bool := f = .equal

/-- JNE's condition: any state but Equal, Unset among them (R172, R174; decision D14, log 10). -/
def Flags.takesJne (f : Flags) : Bool := f ≠ .equal

/-- `FL_ENC`: the byte `0b00000LGE` (R28). UNVERIFIED: the spec's decision D2, log 14; no instruction reads it. -/
def Flags.encoding : Flags → Byte
  | .unset => 0x00#8
  | .equal => 0x01#8
  | .greaterThan => 0x02#8
  | .lessThan => 0x04#8

end Sys2Proof.Machine
end

