-- ==== Sys2Proof/Syntax.lean ====
section
/-! DEFINITION. The syntax of the CORE ISA: the 15 mnemonics, the four formats (30_encoding.md R81, R85) and the
instructions with their operand bytes. A register-index operand is the whole operand byte (R83); whether it
names a register is WellFormed.lean's check. -/

namespace Sys2Proof

/-- The 15 mnemonics of the opcode table, in the table's order (R85). -/
inductive Opcode where
  | hlt | ldi | prn | add | sub | mul | div | cmp | push | pop | call | ret | jmp | jeq | jne
deriving DecidableEq, Repr

/-- The four instruction formats (R81). -/
inductive Format where
  /-- One byte, no operand. -/
  | n
  /-- Two bytes, one register index. -/
  | r
  /-- Three bytes, two register indices. -/
  | rr
  /-- Three bytes, a register index and an immediate. -/
  | ri
deriving DecidableEq, Repr

/-- The instructions, one constructor per row of the opcode table. Register operands `r`, `a`, `b` and the
immediate `imm` are the operand bytes as they stand in memory (R81, R83, R84). -/
inductive Instr where
  /-- HLT: halt (R116). -/
  | hlt
  /-- LDI reg, imm: load immediate (R117). -/
  | ldi (r imm : Byte)
  /-- PRN reg: print (R118). -/
  | prn (r : Byte)
  /-- ADD regA, regB (R131). -/
  | add (a b : Byte)
  /-- SUB regA, regB (R132). -/
  | sub (a b : Byte)
  /-- MUL regA, regB (R133). -/
  | mul (a b : Byte)
  /-- DIV regA, regB (R134). -/
  | div (a b : Byte)
  /-- CMP regA, regB: compare (R135). -/
  | cmp (a b : Byte)
  /-- PUSH reg (R151). -/
  | push (r : Byte)
  /-- POP reg (R152). -/
  | pop (r : Byte)
  /-- CALL reg: call a subroutine (R153). -/
  | call (r : Byte)
  /-- RET: return from a subroutine (R154). -/
  | ret
  /-- JMP reg: jump (R170). -/
  | jmp (r : Byte)
  /-- JEQ reg: jump if equal (R171). -/
  | jeq (r : Byte)
  /-- JNE reg: jump if not equal (R172). -/
  | jne (r : Byte)
deriving DecidableEq, Repr

/-- The mnemonic of an instruction. -/
def Instr.opcode : Instr → Opcode
  | .hlt => .hlt
  | .ldi _ _ => .ldi
  | .prn _ => .prn
  | .add _ _ => .add
  | .sub _ _ => .sub
  | .mul _ _ => .mul
  | .div _ _ => .div
  | .cmp _ _ => .cmp
  | .push _ => .push
  | .pop _ => .pop
  | .call _ => .call
  | .ret => .ret
  | .jmp _ => .jmp
  | .jeq _ => .jeq
  | .jne _ => .jne

/-- The operand bytes of an instruction, in the order of the text and of memory (R81, R91). -/
def Instr.operands : Instr → List Byte
  | .hlt => []
  | .ldi r imm => [r, imm]
  | .prn r => [r]
  | .add a b => [a, b]
  | .sub a b => [a, b]
  | .mul a b => [a, b]
  | .div a b => [a, b]
  | .cmp a b => [a, b]
  | .push r => [r]
  | .pop r => [r]
  | .call r => [r]
  | .ret => []
  | .jmp r => [r]
  | .jeq r => [r]
  | .jne r => [r]

/-- The operand bytes typed as register indices, `B1` before `B2` (R81, R113): all of them but LDI's immediate. -/
def Instr.regOperands : Instr → List Byte
  | .ldi r _ => [r]
  | .hlt => []
  | .prn r => [r]
  | .add a b => [a, b]
  | .sub a b => [a, b]
  | .mul a b => [a, b]
  | .div a b => [a, b]
  | .cmp a b => [a, b]
  | .push r => [r]
  | .pop r => [r]
  | .call r => [r]
  | .ret => []
  | .jmp r => [r]
  | .jeq r => [r]
  | .jne r => [r]

end Sys2Proof
end

