-- ==== Sys2Proof/WellFormed.lean ====
section
/-! DEFINITION. Well-formed instructions: every operand byte that the format types as a register index is in
0..7 (30_encoding.md R83, R89). The immediate of LDI has no check: every byte is legal (R84). -/

namespace Sys2Proof

/-- A byte designates a register exactly when it is in 0..7; it is not masked (R83). -/
def isRegIndex (b : Byte) : Bool := b.toNat < Config.nregs

/-- The first register-index operand that designates no register, `B1` before `B2` (R113). -/
def Instr.badOperand? (i : Instr) : Option Byte := i.regOperands.find? (fun b => !isRegIndex b)

/-- Every register-index operand is in 0..7. -/
def Instr.wellFormed (i : Instr) : Bool := i.regOperands.all isRegIndex

end Sys2Proof
end

