-- ==== Sys2Proof/Decode.lean ====
section
/-! DEFINITION. The opcode table, the decoder and the encoder (30_encoding.md; 40_dispatch_basic.md R112, R113).
Decoding is total on any bytes and rejects by name. -/

namespace Sys2Proof

/-- The parameter `OPC` at its default assignment (R86). UNVERIFIED: no source gives the bytes; the spec's
decision D1, log 1; unsafe. -/
def opcodeByte : Opcode → Byte
  | .hlt => 0x01#8
  | .ldi => 0x82#8
  | .prn => 0x47#8
  | .add => 0xA0#8
  | .sub => 0xA1#8
  | .mul => 0xA2#8
  | .div => 0xA3#8
  | .cmp => 0xA7#8
  | .push => 0x45#8
  | .pop => 0x46#8
  | .call => 0x50#8
  | .ret => 0x11#8
  | .jmp => 0x54#8
  | .jeq => 0x55#8
  | .jne => 0x56#8

/-- The opcode table's rows (R85). -/
def allOpcodes : List Opcode :=
  [.hlt, .ldi, .prn, .add, .sub, .mul, .div, .cmp, .push, .pop, .call, .ret, .jmp, .jeq, .jne]

/-- The format column of the opcode table (R85). -/
def Opcode.format : Opcode → Format
  | .hlt => .n
  | .ldi => .ri
  | .prn => .r
  | .add => .rr
  | .sub => .rr
  | .mul => .rr
  | .div => .rr
  | .cmp => .rr
  | .push => .r
  | .pop => .r
  | .call => .r
  | .ret => .n
  | .jmp => .r
  | .jeq => .r
  | .jne => .r

/-- The operand count of a format (R81). -/
def Format.operandCount : Format → Nat
  | .n => 0
  | .r => 1
  | .rr => 2
  | .ri => 2

/-- The length of an instruction in bytes, `1 + operand_count` (R80, R90). -/
def Opcode.length (o : Opcode) : Nat := 1 + o.format.operandCount

/-- The opcode a whole byte `B0` matches, if any (R85, R112). -/
def Opcode.ofByte? (b : Byte) : Option Opcode := allOpcodes.find? (fun o => opcodeByte o == b)

/-- The instruction of an opcode with the latched bytes `B1` and `B2`; bytes that are not part of the format
are ignored (R81, R82). -/
def Opcode.withOperands : Opcode → Byte → Byte → Instr
  | .hlt, _, _ => .hlt
  | .ldi, b1, b2 => .ldi b1 b2
  | .prn, b1, _ => .prn b1
  | .add, b1, b2 => .add b1 b2
  | .sub, b1, b2 => .sub b1 b2
  | .mul, b1, b2 => .mul b1 b2
  | .div, b1, b2 => .div b1 b2
  | .cmp, b1, b2 => .cmp b1 b2
  | .push, b1, _ => .push b1
  | .pop, b1, _ => .pop b1
  | .call, b1, _ => .call b1
  | .ret, _, _ => .ret
  | .jmp, b1, _ => .jmp b1
  | .jeq, b1, _ => .jeq b1
  | .jne, b1, _ => .jne b1

/-- Why the decoder rejects three latched bytes. -/
inductive DecodeError where
  /-- `B0` is none of the 15 opcode bytes (R88, R112). -/
  | unknownOpcode (b0 : Byte)
  /-- A register-index operand byte is above 7 (R83, R113). -/
  | invalidRegisterIndex (b : Byte)
deriving DecidableEq, Repr

/-- Decode (R112), then the operand check (R113), on the three bytes latched by the fetch. -/
def decode (b0 b1 b2 : Byte) : Except DecodeError Instr :=
  match Opcode.ofByte? b0 with
  | none => .error (.unknownOpcode b0)
  | some o =>
    match (o.withOperands b1 b2).badOperand? with
    | some b => .error (.invalidRegisterIndex b)
    | none => .ok (o.withOperands b1 b2)

/-- The decoder on a list of bytes that starts with an instruction; bytes the list lacks count as 0. -/
def decodeList (bs : List Byte) : Except DecodeError Instr :=
  decode (bs.getD 0 0#8) (bs.getD 1 0#8) (bs.getD 2 0#8)

/-- The encoder: the opcode byte, then the operand bytes at ascending addresses (R55, R81). -/
def encode (i : Instr) : List Byte := opcodeByte i.opcode :: i.operands

/-- The length in bytes of an instruction's encoding (R80). -/
def Instr.length (i : Instr) : Nat := i.opcode.length

/-- Byte `k` of an instruction written as one number, its first byte the least significant; the bits at and
above `nbits` are 0. -/
def tableByte (nbits w k : Nat) : Byte := BitVec.ofNat 8 ((w % 2 ^ nbits) / 2 ^ (8 * k))

/-- The instruction the decoder reads from a word numbered as opcode_table.json numbers it. -/
def decodeTableWord (nbits w : Nat) : Option Instr :=
  (decode (tableByte nbits w 0) (tableByte nbits w 1) (tableByte nbits w 2)).toOption

end Sys2Proof
end

