-- ==== Sys2Proof/Machine/Ops.lean ====
section
/-! DEFINITION. The named operations over memory, registers, the output sequence and the program counter, the
fatal-fault entry, and the fetch. -/

namespace Sys2Proof.Machine

/-! ### Memory as data -/

/-- The byte at an address; an unlisted address reads as `MEM_RESET` (R31). -/
def Memory.read : Memory → Nat → Byte
  | [], _ => Config.memReset
  | (k, v) :: m, a => if k = a then v else Memory.read m a

/-- Memory with no entry at an address. -/
def Memory.erase (m : Memory) (a : Nat) : Memory := m.filter (fun c => c.1 ≠ a)

/-- Memory with an entry put before the first larger address. -/
def Memory.insert : Memory → Nat → Byte → Memory
  | [], a, v => [(a, v)]
  | (k, w) :: m, a, v => if a < k then (a, v) :: (k, w) :: m else (k, w) :: Memory.insert m a v

/-- Memory after the byte `v` is written at `a`, in canonical form: writing `MEM_RESET` removes the entry. -/
def Memory.write (m : Memory) (a : Nat) (v : Byte) : Memory :=
  if v = Config.memReset then Memory.erase m a else Memory.insert (Memory.erase m a) a v

/-- Memory after bytes are written at ascending addresses from `a` on. -/
def Memory.writeList : Memory → Nat → List Byte → Memory
  | m, _, [] => m
  | m, a, v :: vs => Memory.writeList (Memory.write m a v) (a + 1) vs

/-! ### Registers -/

/-- `x[i]` (R8). -/
def State.reg (s : State) (i : RegIdx) : Byte := s.regs[i]

/-- `x[i] <- v` (R8). No register is hardwired or read-only (R20). -/
def State.setReg (s : State) (i : RegIdx) (v : Byte) : State := { s with regs := s.regs.set i v }

/-- `sp`, another spelling of `x[7]` (R8, R21). -/
def State.sp (s : State) : Byte := s.reg Config.spIndex

/-! ### Output, program counter, flags, run state -/

/-- `emit e`: append an event to the output sequence (R11, R30). -/
def State.emit (s : State) (e : Event) : State := { s with out := s.out ++ [e] }

/-- `pc <- pc + n`, which does not wrap (R25, R114). -/
def State.advance (s : State) (n : Nat) : State := { s with pc := s.pc + n }

/-- `pc <- t` for a control-transfer target, a byte (R114, R173). -/
def State.jump (s : State) (t : Byte) : State := { s with pc := t.toNat }

/-- `fl <- f` (R27). -/
def State.setFlags (s : State) (f : Flags) : State := { s with fl := f }

/-- `run <- Halted` (R116). -/
def State.halt (s : State) : State := { s with run := .halted }

/-! ### Taking a fatal fault -/

/-- Fatal fault entry, `raise K(info)`: the run state records the fault and every other part of the state keeps
its value (R10, R194). There is no return from a fault (R195), so no operation stands beside it. -/
def State.raise (s : State) (f : FatalFault) : State := { s with run := .faulted f }

/-- The end of an instruction: its result, or the fault entry taken in the state the instruction started from,
so that a raise anywhere leaves no write of the step behind (R115, decision D10). -/
def finish (s : State) : Except FatalFault State → Host.Outcome State Fault Refusal
  | .ok t => .next t
  | .error f => .next (s.raise f)

/-- The fault entry of a rejected decode: an unknown opcode is first reported with its byte and address (R112,
R187); a register index above 7 records the byte and the pc (R113, R188). -/
def State.raiseDecodeError (s : State) : DecodeError → State
  | .unknownOpcode op => (s.emit (.report (.unknownOpcode op s.pc))).raise (.unknownOpcode op s.pc)
  | .invalidRegisterIndex b => s.raise (.invalidRegisterIndex b s.pc)

/-! ### Memory accesses of the core -/

/-- `MemRead(addr, 1)`: the byte, or `OutOfRangeAddress(addr)` outside 0..255 (R9, R53). -/
def State.memRead (s : State) (addr : Int) : Except FatalFault Byte :=
  if 0 ≤ addr ∧ addr < Config.memSize then .ok (s.mem.read addr.toNat)
  else .error (.outOfRangeAddress addr s.pc)

/-- `MemWrite(addr, 1, v)`: the state with the cell written, or `OutOfRangeAddress(addr)` outside 0..255
(R9, R53). -/
def State.memWrite (s : State) (addr : Int) (v : Byte) : Except FatalFault State :=
  if 0 ≤ addr ∧ addr < Config.memSize then .ok { s with mem := s.mem.write addr.toNat v }
  else .error (.outOfRangeAddress addr s.pc)

/-- The fetch: the three latched bytes `B0`, `B1`, `B2`, read in this order whatever the opcode is (R12, R82,
R111). -/
def State.fetch (s : State) : Except FatalFault (Byte × Byte × Byte) := do
  let b0 ← s.memRead s.pc
  let b1 ← s.memRead (s.pc + 1)
  let b2 ← s.memRead (s.pc + 2)
  return (b0, b1, b2)

end Sys2Proof.Machine
end

