-- ==== Sys2Proof/Machine/Operands.lean ====
section
/-! DEFINITION. Operand forms: register-index operands, the stepping of the stack pointer, the addresses the
stack and subroutine instructions form, and the narrowing of an exact result to a byte. -/

namespace Sys2Proof.Machine

/-- The register a register-index operand byte designates, or `InvalidRegisterIndex(b, pc)`: the whole byte,
not masked (R83, R113). -/
def State.regOperand (s : State) (b : Byte) : Except FatalFault RegIdx :=
  if h : b.toNat < Config.nregs then .ok ⟨b.toNat, h⟩ else .error (.invalidRegisterIndex b s.pc)

/-- An exact integer stored in an 8-bit cell: `mod 256`, a negative `d` as `d + 256` (R7, R136). -/
def narrow (v : Int) : Byte := BitVec.ofInt 8 v

/-- The implicit stepping of the stack pointer to `v`: it does not wrap, a value outside 0..255 is
`OutOfRangeAddress(v)` (R157). -/
def State.stepSp (s : State) (v : Int) : Except FatalFault State :=
  if 0 ≤ v ∧ v < Config.memSize then .ok (s.setReg Config.spIndex (narrow v))
  else .error (.outOfRangeAddress v s.pc)

/-- The address PUSH stores to: the stack pointer after the decrement (R151). -/
def State.pushAddress (s : State) : Int := (s.sp.toNat : Int) - 1

/-- The address CALL stores the return address to: the current stack pointer (R153). -/
def State.callAddress (s : State) : Int := s.sp.toNat

/-- The return address CALL stores: `pc + 2`, at most 255 where a CALL can be fetched (R153). -/
def State.returnAddress (s : State) : Byte := narrow (s.pc + 2)

/-- The address CALL reads its target from: the operand's value plus one, one of 1..8 (R153). UNVERIFIED: the
spec's reading of the source, decision D13, log 4; unsafe. -/
def callTargetAddress (r : RegIdx) : Int := r.val + 1

/-- The address RET reads its target from: the cell above the stack pointer (R154). -/
def State.retAddress (s : State) : Int := s.sp.toNat + 1

end Sys2Proof.Machine
end

