-- ==== Sys2Proof/Machine/Alu.lean ====
section
/-! DEFINITION. ADD, SUB, MUL, DIV and CMP (41_alu.md R130 to R139). -/

namespace Sys2Proof.Machine

/-- The common shape of the five ALU instructions: check regA, then regB, read both registers once, compute,
`pc <- pc + 3` (R113, R130). -/
def aluInstr (a b : Byte) (s : State) (f : RegIdx → Byte → Byte → Except FatalFault State) :
    Host.Outcome State Fault Refusal :=
  finish s do
    let a ← s.regOperand a
    let b ← s.regOperand b
    let t ← f a (s.reg a) (s.reg b)
    return t.advance 3

/-- ADD: the sum modulo 256 (R131, R136). -/
def execAdd (a b : Byte) (s : State) : Host.Outcome State Fault Refusal :=
  aluInstr a b s fun a va vb => .ok (s.setReg a (narrow (va.toNat + vb.toNat)))

/-- SUB: regA minus regB modulo 256 (R132, R136). -/
def execSub (a b : Byte) (s : State) : Host.Outcome State Fault Refusal :=
  aluInstr a b s fun a va vb => .ok (s.setReg a (narrow ((va.toNat : Int) - vb.toNat)))

/-- MUL: the low byte of the unsigned product (R133, R136). -/
def execMul (a b : Byte) (s : State) : Host.Outcome State Fault Refusal :=
  aluInstr a b s fun a va vb => .ok (s.setReg a (narrow (va.toNat * vb.toNat)))

/-- DIV: the unsigned quotient rounded down; a zero divisor raises `DivisionByZero(pc)` (R134, R136). -/
def execDiv (a b : Byte) (s : State) : Host.Outcome State Fault Refusal :=
  aluInstr a b s fun a va vb =>
    if vb = 0#8 then .error (.divisionByZero s.pc)
    else .ok (s.setReg a (narrow (va.toNat / vb.toNat : Nat)))

/-- CMP: the unsigned three-way comparison into the flags register (R135). -/
def execCmp (a b : Byte) (s : State) : Host.Outcome State Fault Refusal :=
  aluInstr a b s fun _ va vb => .ok (s.setFlags (compareFlags va vb))

end Sys2Proof.Machine
end

