-- ==== Sys2Proof/Machine/Basic.lean ====
section
/-! DEFINITION. HLT, LDI and PRN (40_dispatch_basic.md R116 to R118). -/

namespace Sys2Proof.Machine

/-- HLT: emit the halt notice and halt; the pc stays at the HLT (R116). -/
def execHlt (s : State) : Host.Outcome State Fault Refusal :=
  finish s (.ok (s.emit (.report .haltNotice)).halt)

/-- LDI reg, imm: `x[r] <- imm` (R117). -/
def execLdi (r imm : Byte) (s : State) : Host.Outcome State Fault Refusal :=
  finish s do
    let r ← s.regOperand r
    return (s.setReg r imm).advance 3

/-- PRN reg: `emit Prn(x[r])` (R118). -/
def execPrn (r : Byte) (s : State) : Host.Outcome State Fault Refusal :=
  finish s do
    let r ← s.regOperand r
    return (s.emit (.prn (s.reg r))).advance 2

end Sys2Proof.Machine
end

