-- ==== Sys2Proof/Machine/Branch.lean ====
section
/-! DEFINITION. JMP, JEQ and JNE (43_branch.md R170 to R174): register-indirect, absolute, no link. -/

namespace Sys2Proof.Machine

/-- The common shape of the branches: to the register's value when taken, else `pc <- pc + 2` (R173). The
operand is checked whether or not the branch is taken (R113). -/
def branchInstr (r : Byte) (s : State) (taken : Bool) : Host.Outcome State Fault Refusal :=
  finish s do
    let r ← s.regOperand r
    return if taken then s.jump (s.reg r) else s.advance 2

/-- JMP reg: unconditional (R170). -/
def execJmp (r : Byte) (s : State) : Host.Outcome State Fault Refusal := branchInstr r s true

/-- JEQ reg: taken when `fl = Equal` (R171). -/
def execJeq (r : Byte) (s : State) : Host.Outcome State Fault Refusal := branchInstr r s s.fl.takesJeq

/-- JNE reg: taken when `fl ≠ Equal` (R172). -/
def execJne (r : Byte) (s : State) : Host.Outcome State Fault Refusal := branchInstr r s s.fl.takesJne

end Sys2Proof.Machine
end

