-- ==== Sys2Proof/Machine/Stack.lean ====
section
/-! DEFINITION. PUSH, POP, CALL and RET (42_stack_subroutine.md R150 to R157), literally: the two conventions
do not agree with each other, and both are normative. -/

namespace Sys2Proof.Machine

/-- PUSH reg: report StackFull when `sp = 0`, else decrement `sp` and store the register, read after the
decrement, at the new `sp` (R151, decision D12). -/
def execPush (r : Byte) (s : State) : Host.Outcome State Fault Refusal :=
  finish s do
    let r ← s.regOperand r
    if s.sp = 0#8 then
      return (s.emit (.report .stackFull)).advance 2
    else
      let s₁ ← s.stepSp s.pushAddress
      let s₂ ← s₁.memWrite s.pushAddress (s₁.reg r)
      return s₂.advance 2

/-- POP reg: report StackEmpty when `sp = 0xF4`, else load the register from `M[sp]` and then increment `x[7]`
as it stands after that write (R152, R157, decision D12). -/
def execPop (r : Byte) (s : State) : Host.Outcome State Fault Refusal :=
  finish s do
    let r ← s.regOperand r
    if s.sp = Config.spReset then
      return (s.emit (.report .stackEmpty)).advance 2
    else
      let v ← s.memRead s.sp.toNat
      let s₁ := s.setReg r v
      let s₂ ← s₁.stepSp (s₁.sp.toNat + 1)
      return s₂.advance 2

/-- CALL reg: store `pc + 2` at the current `sp`, decrement `sp`, and jump to the byte read after that at the
operand's value plus one; the register is not read (R153, R157). -/
def execCall (r : Byte) (s : State) : Host.Outcome State Fault Refusal :=
  finish s do
    let r ← s.regOperand r
    let s₁ ← s.stepSp ((s.sp.toNat : Int) - 1)
    let s₂ ← s₁.memWrite s.callAddress s.returnAddress
    let t ← s₂.memRead (callTargetAddress r)
    return s₂.jump t

/-- RET: jump to the byte at `sp + 1` and increment `sp` (R154, R157). -/
def execRet (s : State) : Host.Outcome State Fault Refusal :=
  finish s do
    let t ← s.memRead s.retAddress
    let s₁ ← s.stepSp (s.sp.toNat + 1)
    return s₁.jump t

end Sys2Proof.Machine
end

