-- ==== Sys2Proof/Machine/Step.lean ====
section
/-! DEFINITION. One step of the dispatcher (40_dispatch_basic.md R110 to R115), and the placing of an
instruction where the next step fetches it. -/

namespace Sys2Proof.Machine

/-- One step: it exists only in `Running` (R110); fetch (R111), decode and operand check (R112, R113), then the
instruction's own rule (R114). A fatal fault is a next state with `run = Faulted` (R194, log 5). -/
def step (s : State) : Host.Outcome State Fault Refusal :=
  match s.run with
  | .halted => .fault .noStepHalted
  | .faulted _ => .fault .noStepFaulted
  | .running =>
    match s.fetch with
    | .error f => .next (s.raise f)
    | .ok (b0, b1, b2) =>
      match decode b0 b1 b2 with
      | .error e => .next (s.raiseDecodeError e)
      | .ok i => exec i s

/-- The state with an instruction stored where `step` fetches next. The fetch needs `run = Running` and
`pc <= 253` (R110, R111): where they do not hold, the run state is made Running and the pc is set to 0. -/
def State.withFetchWord (s : State) (nbits w : Nat) : State :=
  let pc := if s.pc + 2 < Config.memSize then s.pc else Config.pcReset
  { s with
    pc := pc
    run := .running
    mem := s.mem.writeList pc [tableByte nbits w 0, tableByte nbits w 1, tableByte nbits w 2] }

end Sys2Proof.Machine
end

