-- ==== Sys2Proof/Machine/Platform.lean ====
section
/-! DEFINITION. What stands around the running core: the loader (70_reset_and_hazards.md R222), the exit status
and the fault codes the host sees (60_exceptions.md R185, R198), and the observational trace (R199). Nothing
here is called by `step`. -/

namespace Sys2Proof.Machine

/-- Reset followed by the loader's one act: byte `k` of the image to `M[k]`, nothing else written (R220, R222).
An image longer than memory is a refused launch (decision D16). -/
def boot (image : List Byte) : Host.Outcome State Fault Refusal :=
  if image.length ≤ Config.memSize then
    .next { State.reset with mem := State.reset.mem.writeList Config.loadBase image }
  else .refused (.imageTooLong image.length)

/-- The process exit status that follows from an end state, none while running: 0 for Halted, 1 for an unknown
opcode, `EXIT_FATAL` for the other fatal kinds (R198, decision D19, log 13). -/
def RunState.exitStatus : RunState → Option Nat
  | .running => none
  | .halted => some 0
  | .faulted (.unknownOpcode _ _) => some 1
  | .faulted .unsupportedAluOperation => some Config.exitFatal
  | .faulted (.divisionByZero _) => some Config.exitFatal
  | .faulted (.outOfRangeAddress _ _) => some Config.exitFatal
  | .faulted (.invalidRegisterIndex _ _) => some Config.exitFatal

/-- The code of a fatal kind, visible to the host only (R185). UNVERIFIED: the spec's decision D11, log 15. -/
def FatalFault.code : FatalFault → Nat
  | .unsupportedAluOperation => 1
  | .unknownOpcode _ _ => 2
  | .divisionByZero _ => 3
  | .outOfRangeAddress _ _ => 6
  | .invalidRegisterIndex _ _ => 7

/-- The error-kind code of a report, none for the halt notice, which is no error kind (R185). -/
def Report.code : Report → Option Nat
  | .stackFull => some 4
  | .stackEmpty => some 5
  | .unknownOpcode _ _ => some 2
  | .haltNotice => none

/-- The 12 fields of the debug trace line: pc, the three bytes at pc, and the 8 registers (R199); none where
`pc + 2 > 255`, of which the spec says the source does not tell what the trace does (log 22). -/
def State.trace (s : State) : Option (List Byte) :=
  match s.fetch with
  | .error _ => none
  | .ok (b0, b1, b2) => some ([BitVec.ofNat 8 s.pc, b0, b1, b2] ++ s.regs.toList)

end Sys2Proof.Machine
end

