-- ==== Sys2Proof/Safety.lean ====
section
/-! DEFINITION. The words claims are stated in: the next state of an outcome, what an instruction may write, the
invariant of the machine, and a run's end that counts as safe. -/

namespace Sys2Proof.Machine

/-- The next state of an outcome, if it is one. -/
def nextState? : Host.Outcome State Fault Refusal → Option State
  | .next t => some t
  | .fault _ => none
  | .refused _ => none

/-- An outcome with a change made to its next state. -/
def mapNext (f : State → State) : Host.Outcome State Fault Refusal → Host.Outcome State Fault Refusal
  | .next t => .next (f t)
  | .fault r => .fault r
  | .refused r => .refused r

/-- The operand byte that designates a register (R83). -/
def regByte (r : RegIdx) : Byte := BitVec.ofNat 8 r.val

/-- The flags, the run state and the output sequence are as before. -/
def SameStatus (s t : State) : Prop := t.fl = s.fl ∧ t.run = s.run ∧ t.out = s.out

end Sys2Proof.Machine

namespace Sys2Proof

open Machine

/-- The registers an instruction may write (R22): its destination operand, and the stack pointer where the
instruction steps it. -/
def Instr.mayWrite : Instr → RegIdx → Prop
  | .hlt, _ => False
  | .ldi r _, k => r = regByte k
  | .prn _, _ => False
  | .add a _, k => a = regByte k
  | .sub a _, k => a = regByte k
  | .mul a _, k => a = regByte k
  | .div a _, k => a = regByte k
  | .cmp _ _, _ => False
  | .push _, k => k = Config.spIndex
  | .pop r, k => r = regByte k ∨ k = Config.spIndex
  | .call _, k => k = Config.spIndex
  | .ret, k => k = Config.spIndex
  | .jmp _, _ => False
  | .jeq _, _ => False
  | .jne _, _ => False

/-- The address an instruction stores its one byte to, by the functions the meanings use, or none for an
instruction that stores nothing (R58, R59). -/
def Instr.storeAddress? : Instr → State → Option Int
  | .push _, s => some s.pushAddress
  | .call _, s => some s.callAddress
  | .hlt, _ => none
  | .ldi _ _, _ => none
  | .prn _, _ => none
  | .add _ _, _ => none
  | .sub _ _, _ => none
  | .mul _ _, _ => none
  | .div _ _, _ => none
  | .cmp _ _, _ => none
  | .pop _, _ => none
  | .ret, _ => none
  | .jmp _, _ => none
  | .jeq _, _ => none
  | .jne _, _ => none

end Sys2Proof

namespace Sys2Proof.Machine

/-- What a recorded fatal fault says of the state it left (R185 to R190, R194): the recorded pc is the pc the
machine still has, and the recorded value is one the fault can have. -/
def FatalFault.RecordedIn : FatalFault → State → Prop
  | .unsupportedAluOperation, _ => False
  | .unknownOpcode op addr, s =>
    addr = s.pc ∧ s.pc + 2 < Config.memSize ∧ s.mem.read s.pc = op ∧ Opcode.ofByte? op = none ∧
      s.out.getLast? = some (.report (.unknownOpcode op addr))
  | .divisionByZero pc, s => pc = s.pc ∧ s.pc + 2 < Config.memSize
  | .outOfRangeAddress v pc, s => pc = s.pc ∧ (v = -1 ∨ v = Config.memSize)
  | .invalidRegisterIndex b pc, s => pc = s.pc ∧ s.pc + 2 < Config.memSize ∧ isRegIndex b = false

/-- The invariant every step keeps: memory is in canonical form, the pc is one of 0..256 (R25), a halted machine
stands at an executable address with its halt notice last (R116), and a faulted one with a fault its state
bears out. -/
def State.Inv (s : State) : Prop :=
  s.mem.wf ∧ s.pc ≤ Config.memSize ∧
    match s.run with
    | .running => True
    | .halted => s.pc + 2 < Config.memSize ∧ s.mem.read s.pc = opcodeByte .hlt ∧
        s.out.getLast? = some (.report .haltNotice)
    | .faulted f => f.RecordedIn s

/-- A state that no fatal fault has ended: what a claim about a program normally concludes (R195). -/
def State.Safe (s : State) : Prop := ∀ f, s.run ≠ .faulted f

end Sys2Proof.Machine
end

