-- ==== Sys2Proof/Certificates/Slice0/Obligations.lean ====
section
/-! DEFINITION. The statements for the provers, from the numbered rules of spec/. `x[r]` is `s.reg r`, `sp` is
`s.sp`, `M[a]` is `s.mem.read a`. A register operand is written `regByte r` for a register `r` of 0..7; operand
bytes above 7 have statements of their own. A statement about `exec` speaks of the meaning in every state its
hypotheses allow, also where no step calls it (the model's choice, log 16). -/

open Sys2Proof Sys2Proof.Machine

/-! ### Encoding -/

/-- Decoding the encoding of a well-formed instruction, whatever bytes follow it, gives it back (30_encoding.md
sections 1 to 3). The opcode bytes are the spec's default assignment, decision D1 (log 1). -/
def Obligations.DecodeOfEncode : Prop :=
  ∀ (i : Instr) (rest : List Byte), i.wellFormed = true → decodeList (encode i ++ rest) = .ok i

/-- Three bytes the decoder accepts give a well-formed instruction whose encoding is where they begin, so no bit of
an encoding is dropped (30_encoding.md sections 1 and 2; D1, D7, logs 1 and 6). -/
def Obligations.DecodedBytesAreTheEncoding : Prop :=
  ∀ (b0 b1 b2 : Byte) (i : Instr), decode b0 b1 b2 = .ok i →
    i.wellFormed = true ∧ encode i <+: [b0, b1, b2]

/-- Decoding rejects by name: a byte that is no opcode, else the first register-index byte above 7, `B1` before
`B2`, and nothing else (40_dispatch_basic.md section 1; the strictness of the operand check is decision D7,
log 6). -/
def Obligations.DecodeRejectsByName : Prop :=
  ∀ b0 b1 b2 : Byte,
    ((∀ o, opcodeByte o ≠ b0) → decode b0 b1 b2 = .error (.unknownOpcode b0)) ∧
    ∀ o, opcodeByte o = b0 →
      match o.format with
      | .n => ∃ i, decode b0 b1 b2 = .ok i
      | .r =>
        if 8 ≤ b1.toNat then decode b0 b1 b2 = .error (.invalidRegisterIndex b1)
        else ∃ i, decode b0 b1 b2 = .ok i
      | .ri =>
        if 8 ≤ b1.toNat then decode b0 b1 b2 = .error (.invalidRegisterIndex b1)
        else ∃ i, decode b0 b1 b2 = .ok i
      | .rr =>
        if 8 ≤ b1.toNat then decode b0 b1 b2 = .error (.invalidRegisterIndex b1)
        else if 8 ≤ b2.toNat then decode b0 b1 b2 = .error (.invalidRegisterIndex b2)
        else ∃ i, decode b0 b1 b2 = .ok i

/-- The 15 opcode bytes are distinct, 241 byte values are no opcode, and 0x00 is one of those (30_encoding.md
sections 3 and 4; default assignment, D1, log 1). -/
def Obligations.OpcodeBytesDistinct : Prop :=
  (∀ o p, opcodeByte o = opcodeByte p → o = p) ∧ allOpcodes.length = 15 ∧ (∀ o, o ∈ allOpcodes) ∧
    ((List.range 256).filter fun n => Opcode.ofByte? (BitVec.ofNat 8 n) = none).length = 241 ∧
    Opcode.ofByte? 0x00#8 = none

/-- One word of each family, written out from the spec's encoding, decodes to its instruction (default opcode
bytes, D1, log 1). -/
def Obligations.WordsDecode : Prop :=
  decode 0x82#8 0x03#8 0xFF#8 = .ok (.ldi 3 0xFF) ∧ decode 0xA1#8 0x02#8 0x05#8 = .ok (.sub 2 5) ∧
    decode 0x45#8 0x06#8 0xFF#8 = .ok (.push 6) ∧ decode 0x50#8 0x07#8 0x00#8 = .ok (.call 7) ∧
    decode 0x56#8 0x03#8 0x01#8 = .ok (.jne 3) ∧ decode 0x01#8 0xFF#8 0xFF#8 = .ok .hlt

/-! ### The step -/

/-- A running machine whose three bytes at the pc decode to an instruction steps by exactly that instruction's
meaning (40_dispatch_basic.md section 1). Nothing stands around it: the meaning itself advances the pc. -/
def Obligations.StepRunsDecodedInstruction : Prop :=
  ∀ (s : State) (i : Instr), s.run = .running → s.pc ≤ 253 →
    decode (s.mem.read s.pc) (s.mem.read (s.pc + 1)) (s.mem.read (s.pc + 2)) = .ok i → step s = exec i s

/-- A running machine whose memory holds the encoding of a well-formed instruction from the pc on steps by that
instruction's meaning, whatever bytes follow it (30_encoding.md section 1; D1, log 1). -/
def Obligations.StepRunsEncodedInstruction : Prop :=
  ∀ (s : State) (i : Instr), s.run = .running → s.pc ≤ 253 → i.wellFormed = true →
    (∀ k, (h : k < (encode i).length) → s.mem.read (s.pc + k) = (encode i)[k]) → step s = exec i s

/-- A step exists exactly in Running; a halted or faulted machine answers that no step exists, and no step is
refused (40_dispatch_basic.md section 1, 60_exceptions.md section 5; the Faulted state and a fault entry as a
next state are decision D11 and log 5). -/
def Obligations.StepExistsExactlyWhenRunning : Prop :=
  ∀ s : State,
    ((∃ t, step s = .next t) ↔ s.run = .running) ∧
    (s.run = .halted → step s = .fault .noStepHalted) ∧
    (∀ f, s.run = .faulted f → step s = .fault .noStepFaulted)

/-- The meaning of every instruction, well-formed or not, answers a next state in every state: nothing is refused,
stuck or waiting. The spec says so of a step in Running (40_dispatch_basic.md section 1, 70_reset_and_hazards.md
section 4). The rest is the model's choice: a meaning is defined also in a Halted or Faulted state and with the pc
above 253, where no step calls it (log 16); a fatal fault entry counts as a next state (log 5; decisions D10, D11);
an ill-formed term, which no decode gives, takes the InvalidRegisterIndex entry (log 6; decision D7). -/
def Obligations.EveryInstructionAnswersNext : Prop :=
  ∀ (i : Instr) (s : State), ∃ t, exec i s = .next t

/-- A running machine with the pc above 253 takes OutOfRangeAddress before any decode: 256 for a pc of 254, 255 or
256, the pc itself above that; nothing else changes (40_dispatch_basic.md section 1; decisions D5 and D6, log 7; the
Faulted state and the precise entry are decisions D10 and D11, log 5). -/
def Obligations.FetchAboveTopFaults : Prop :=
  ∀ s : State, s.run = .running → 253 < s.pc →
    step s = .next { s with run := .faulted (.outOfRangeAddress (max s.pc 256 : Nat) s.pc) }

/-- A running machine whose opcode byte is none of the 15 reports it with its byte and address and takes
UnknownOpcode, which exits with status 1; nothing else changes (60_exceptions.md sections 2 and 8; the Faulted
state and the precise entry are decisions D10 and D11, log 5; the bytes D1, log 1). -/
def Obligations.UnknownOpcodeEntry : Prop :=
  ∀ s : State, s.run = .running → s.pc ≤ 253 → (∀ o, opcodeByte o ≠ s.mem.read s.pc) →
    step s = .next
      { s with
        out := s.out ++ [.report (.unknownOpcode (s.mem.read s.pc) s.pc)]
        run := .faulted (.unknownOpcode (s.mem.read s.pc) s.pc) } ∧
    (RunState.faulted (.unknownOpcode (s.mem.read s.pc) s.pc)).exitStatus = some 1

/-- A running machine whose opcode byte is in the table and whose register-index byte is above 7 takes
InvalidRegisterIndex with that byte, `B1` before `B2`, whatever the instruction would do (40_dispatch_basic.md
section 1, 60_exceptions.md sections 2 and 4; decision D7, log 6; the Faulted state and the precise entry are
decisions D10 and D11, log 5). -/
def Obligations.BadRegisterByteFaultsInStep : Prop :=
  ∀ (s : State) (o : Opcode), s.run = .running → s.pc ≤ 253 → opcodeByte o = s.mem.read s.pc →
    (o.format ≠ .n → 8 ≤ (s.mem.read (s.pc + 1)).toNat →
      step s = .next { s with run := .faulted (.invalidRegisterIndex (s.mem.read (s.pc + 1)) s.pc) }) ∧
    (o.format = .rr → (s.mem.read (s.pc + 1)).toNat < 8 → 8 ≤ (s.mem.read (s.pc + 2)).toNat →
      step s = .next { s with run := .faulted (.invalidRegisterIndex (s.mem.read (s.pc + 2)) s.pc) })

/-- The meaning of an instruction whose first bad register-index byte is `b` takes InvalidRegisterIndex and does
nothing else, whatever its own condition (60_exceptions.md section 4; decision D7, log 6; the Faulted state and the
precise entry are decisions D10 and D11, log 5). That a meaning answers for an ill-formed term, which no decode
gives, is the model's choice (log 6). -/
def Obligations.IllFormedInstructionFaults : Prop :=
  ∀ (i : Instr) (s : State) (b : Byte), i.badOperand? = some b →
    exec i s = .next { s with run := .faulted (.invalidRegisterIndex b s.pc) }

/-- A step that ends in a fatal fault leaves registers, pc, flags and memory as they were; out too, but for the
report of an unknown opcode (60_exceptions.md section 5; decisions D10, D11, log 5). And no step ends in the kind
UnsupportedAluOperation: no instruction rule raises it (41_alu.md section 1, R139; 60_exceptions.md section 2, R190;
decision D22, log 20). -/
def Obligations.FatalFaultIsPrecise : Prop :=
  ∀ (s t : State) (f : FatalFault), step s = .next t → t.run = .faulted f →
    t.regs = s.regs ∧ t.pc = s.pc ∧ t.fl = s.fl ∧ t.mem = s.mem ∧
      match f with
      | .unknownOpcode op addr => t.out = s.out ++ [.report (.unknownOpcode op addr)]
      | .unsupportedAluOperation => False
      | .divisionByZero _ => t.out = s.out
      | .outOfRangeAddress _ _ => t.out = s.out
      | .invalidRegisterIndex _ _ => t.out = s.out

/-- A well-formed instruction ends in a fatal fault exactly in the cases of the table of error kinds: DIV by zero,
POP stepping the pointer to 256, CALL at 0, RET at 0xFF (60_exceptions.md sections 1 and 2; the last three are
decision D9, log 8, and POP R7 reads the pointer it loaded, decision D12, log 9; the Faulted state is decision D11,
log 5). No ALU instruction ends in UnsupportedAluOperation, which is decision D22 (log 20). -/
def Obligations.ExecFaultsExactlyWhereListed : Prop :=
  ∀ (i : Instr) (s t : State), i.wellFormed = true → s.Safe → exec i s = .next t →
    (¬ t.Safe ↔
      match i with
      | .div _ b => ∃ rb : RegIdx, b = regByte rb ∧ s.reg rb = 0#8
      | .pop r =>
        (r ≠ regByte 7 ∧ s.sp = 0xFF#8) ∨
          (r = regByte 7 ∧ s.sp ≠ 0xF4#8 ∧ s.mem.read s.sp.toNat = 0xFF#8)
      | .call _ => s.sp = 0#8
      | .ret => s.sp = 0xFF#8
      | .hlt => False
      | .ldi _ _ => False
      | .prn _ => False
      | .add _ _ => False
      | .sub _ _ => False
      | .mul _ _ => False
      | .cmp _ _ => False
      | .push _ => False
      | .jmp _ => False
      | .jeq _ => False
      | .jne _ => False)

/-- A step enters Halted only by an HLT at the pc, and then the pc and everything but run and out stay
(10_state.md section 4, 40_dispatch_basic.md section 2; the halt notice is decision D23, log 11). -/
def Obligations.OnlyHltHalts : Prop :=
  ∀ s t : State, step s = .next t → t.run = .halted →
    s.pc ≤ 253 ∧ s.mem.read s.pc = opcodeByte .hlt ∧
      t = { s with run := .halted, out := s.out ++ [.report .haltNotice] }

/-- The output sequence is append-only, at most one event a step (10_state.md section 5). -/
def Obligations.OutputIsAppendOnly : Prop :=
  ∀ s t : State, step s = .next t → t.out = s.out ∨ ∃ e, t.out = s.out ++ [e]

/-- The core never reads the output sequence: from a state with another history, the step does the same and
appends the same events (10_state.md section 5). -/
def Obligations.OutputIsNeverRead : Prop :=
  ∀ (s t : State) (o : List Event), step s = .next t →
    ∃ es, t.out = s.out ++ es ∧ step { s with out := o } = .next { t with out := o ++ es }

/-! ### The invariant -/

/-- Every step keeps the invariant: memory in canonical form, pc in 0..256, a halted machine at its HLT, a faulted
one with a fault its state bears out and never UnsupportedAluOperation (10_state.md sections 2, 4 and 6,
60_exceptions.md section 2). It rests on the decisions D5, D6, D7, D9, D10, D11, D22, D23 (logs 5, 6, 7, 8, 11,
20). -/
def Obligations.StepKeepsInvariant : Prop :=
  ∀ s t : State, s.Inv → step s = .next t → t.Inv

/-- The invariant holds right after reset. -/
def Obligations.ResetMeetsInvariant : Prop := State.reset.Inv

/-- What reset leaves: the values of 10_state.md section 8; 0x00 in `x[0]` to `x[6]` and in memory are the spec's
decisions D3 and D4 (logs 2 and 3). -/
def Obligations.ResetState : Prop :=
  State.reset.sp = 0xF4#8 ∧ (∀ k : RegIdx, k ≠ 7 → State.reset.reg k = 0#8) ∧ State.reset.pc = 0 ∧
    State.reset.fl = .unset ∧ State.reset.run = .running ∧ State.reset.out = [] ∧
    ∀ a, State.reset.mem.read a = 0#8

/-- The loader: an image of at most 256 bytes lies at 0..n-1 and nothing else differs from reset; the booted state
meets the invariant; a longer image is refused (70_reset_and_hazards.md section 2; the limit is decision D16,
log 17; cells the loader did not write are D4, log 3). -/
def Obligations.LoaderContract : Prop :=
  ∀ image : List Byte,
    (image.length ≤ 256 →
      ∃ s, boot image = .next s ∧ s.Inv ∧ { s with mem := [] } = State.reset ∧
        (∀ a, (h : a < image.length) → s.mem.read a = image[a]) ∧
        ∀ a, image.length ≤ a → s.mem.read a = 0#8) ∧
    (256 < image.length → boot image = .refused (.imageTooLong image.length))

/-- The exit status: none while running, 0 for Halted, 1 for UnknownOpcode, and one and the same non-zero value for
the other kinds, whatever that open value is (60_exceptions.md section 8; decision D19, log 13). -/
def Obligations.ExitStatuses : Prop :=
  RunState.running.exitStatus = none ∧ RunState.halted.exitStatus = some 0 ∧
    (∀ op addr, (RunState.faulted (.unknownOpcode op addr)).exitStatus = some 1) ∧
    ∃ n : Nat, n ≠ 0 ∧ ∀ f : FatalFault, (∀ op addr, f ≠ .unknownOpcode op addr) →
      (RunState.faulted f).exitStatus = some n

/-! ### Registers and memory -/

/-- Register access: a read after a write gives the value written, other registers are as before, and `sp` is
another spelling of `x[7]`. -/
def Obligations.RegisterAccess : Prop :=
  ∀ (s : State) (i k : RegIdx) (v : Byte),
    (s.setReg i v).reg k = (if k = i then v else s.reg k) ∧ s.sp = s.reg 7 ∧
      (s.setReg i v).sp = (if i = 7 then v else s.sp) ∧
      { s.setReg i v with regs := s.regs } = s

/-- Memory access: a read returns the byte, a write sets it and no other cell, and an address outside 0..255 raises
OutOfRangeAddress of that address in both and touches nothing. -/
def Obligations.MemoryAccess : Prop :=
  ∀ (s : State) (addr : Int) (v : Byte),
    (0 ≤ addr → addr ≤ 255 →
      s.memRead addr = .ok (s.mem.read addr.toNat) ∧
      ∃ t, s.memWrite addr v = .ok t ∧ t.mem.read addr.toNat = v ∧
        (∀ a, a ≠ addr.toNat → t.mem.read a = s.mem.read a) ∧ { t with mem := s.mem } = s) ∧
    (addr < 0 ∨ 255 < addr →
      s.memRead addr = .error (.outOfRangeAddress addr s.pc) ∧
      s.memWrite addr v = .error (.outOfRangeAddress addr s.pc))

/-! ### Frames -/

/-- Register frame, all 15 instructions: a register that is neither the instruction's destination nor the stack
pointer it steps is unchanged (10_state.md section 1). -/
def Obligations.RegisterFrame : Prop :=
  ∀ (i : Instr) (s t : State) (k : RegIdx), exec i s = .next t → ¬ i.mayWrite k → t.reg k = s.reg k

/-- Memory frame, all 15 instructions: every byte outside the one PUSH or CALL stores to is unchanged, and every
byte for the other 13 (20_memory.md section 4). -/
def Obligations.MemoryFrame : Prop :=
  ∀ (i : Instr) (s t : State) (a : Nat), exec i s = .next t → i.storeAddress? s ≠ some (a : Int) →
    t.mem.read a = s.mem.read a

/-- Status frame, all 15 instructions: the flags but for CMP; the run state but for HLT and a fatal fault; the
output but for HLT, PRN, PUSH and POP (10_state.md sections 3 to 5). -/
def Obligations.StatusFrame : Prop :=
  ∀ (i : Instr) (s t : State), exec i s = .next t →
    (i.opcode ≠ .cmp → t.fl = s.fl) ∧
    (i.opcode ≠ .hlt → t.run = s.run ∨ ∃ f, t.run = .faulted f) ∧
    (i.opcode ≠ .hlt → i.opcode ≠ .prn → i.opcode ≠ .push → i.opcode ≠ .pop → t.out = s.out)

/-- The flags rule, whole. Only CMP writes `fl`; every CMP that executes overwrites it with one of the three
outcomes, whatever it was; no step makes it Unset again; and but for JEQ, JNE, whose outcome differs in the pc
alone, no instruction's outcome depends on it. -/
def Obligations.FlagsOnlyByCmpReadOnlyByBranches : Prop :=
  (∀ (i : Instr) (s t : State), exec i s = .next t → i.opcode ≠ .cmp → t.fl = s.fl) ∧
  (∀ (a b : RegIdx) (s : State) (f : Flags),
    ∃ g : Flags, g ≠ .unset ∧
      exec (.cmp (regByte a) (regByte b)) { s with fl := f } = .next { s with fl := g, pc := s.pc + 3 } ∧
      exec (.cmp (regByte a) (regByte b)) s = .next { s with fl := g, pc := s.pc + 3 }) ∧
  (∀ s t : State, step s = .next t → s.fl ≠ .unset → t.fl ≠ .unset) ∧
  (∀ (i : Instr) (s : State) (f : Flags), i.opcode ≠ .cmp → i.opcode ≠ .jeq → i.opcode ≠ .jne →
    exec i { s with fl := f } = mapNext (fun t => { t with fl := f }) (exec i s)) ∧
  (∀ (i : Instr) (s t : State) (f : Flags), i.opcode = .jeq ∨ i.opcode = .jne → exec i s = .next t →
    ∃ p, exec i { s with fl := f } = .next { t with fl := f, pc := p })

/-- The memory rule, whole. Memory changes in a step only by PUSH and CALL, each at its stack address alone; the
loader writes the image before the first step and nothing else; and but for POP, CALL and RET no instruction's
outcome depends on what memory holds, but for the memory it leaves. -/
def Obligations.MemoryWrittenOnlyByLoaderPushCall : Prop :=
  (∀ s t : State, step s = .next t → t.mem ≠ s.mem →
    ∃ r : RegIdx,
      (exec (.push (regByte r)) s = .next t ∧ ∀ a : Nat, (a : Int) ≠ s.sp.toNat - 1 → t.mem.read a = s.mem.read a) ∨
      (exec (.call (regByte r)) s = .next t ∧ ∀ a : Nat, a ≠ s.sp.toNat → t.mem.read a = s.mem.read a)) ∧
  (∀ (i : Instr) (s t : State), exec i s = .next t → i.opcode ≠ .push → i.opcode ≠ .call → t.mem = s.mem) ∧
  (∀ (image : List Byte) (s : State), boot image = .next s →
    (∀ a, (h : a < image.length) → s.mem.read a = image[a]) ∧ { s with mem := [] } = State.reset) ∧
  (∀ (i : Instr) (s t : State) (m : Memory), exec i s = .next t →
    i.opcode ≠ .pop → i.opcode ≠ .call → i.opcode ≠ .ret →
    ∃ m', exec i { s with mem := m } = .next { t with mem := m' })

/-! ### HLT, LDI, PRN -/

/-- HLT halts in every state, with the halt notice last and the pc at the HLT (40_dispatch_basic.md section 2; the
notice is decision D23, log 11). -/
def Obligations.HltHalts : Prop :=
  ∀ s : State, exec .hlt s = .next { s with run := .halted, out := s.out ++ [.report .haltNotice] }

/-- LDI sets any register to any byte, the stack pointer too, and advances the pc by 3 (40_dispatch_basic.md
section 3). -/
def Obligations.LdiLoadsImmediate : Prop :=
  ∀ (s : State) (r : RegIdx) (imm : Byte),
    ∃ t, exec (.ldi (regByte r) imm) s = .next t ∧ t.reg r = imm ∧ (∀ k, k ≠ r → t.reg k = s.reg k) ∧
      t.pc = s.pc + 3 ∧ t.mem = s.mem ∧ SameStatus s t

/-- PRN appends the register's value and changes nothing else but the pc, by 2 (40_dispatch_basic.md section 4). -/
def Obligations.PrnEmitsValue : Prop :=
  ∀ (s : State) (r : RegIdx),
    exec (.prn (regByte r)) s = .next { s with out := s.out ++ [.prn (s.reg r)], pc := s.pc + 2 }

/-! ### The ALU -/

/-- ADD: the sum modulo 256 into regA, the pc by 3, nothing else (41_alu.md section 2). -/
def Obligations.AddResult : Prop :=
  ∀ (s : State) (a b : RegIdx), ∃ v : Byte,
    v.toNat = ((s.reg a).toNat + (s.reg b).toNat) % 256 ∧
    exec (.add (regByte a) (regByte b)) s = .next { s with regs := s.regs.set a v, pc := s.pc + 3 }

/-- SUB: regA minus regB modulo 256 into regA, the pc by 3, nothing else (41_alu.md section 3). -/
def Obligations.SubResult : Prop :=
  ∀ (s : State) (a b : RegIdx), ∃ v : Byte,
    (v.toNat : Int) = (((s.reg a).toNat : Int) - ((s.reg b).toNat : Int)) % 256 ∧
    exec (.sub (regByte a) (regByte b)) s = .next { s with regs := s.regs.set a v, pc := s.pc + 3 }

/-- MUL: the low byte of the product into regA, the pc by 3, nothing else (41_alu.md section 4). -/
def Obligations.MulResult : Prop :=
  ∀ (s : State) (a b : RegIdx), ∃ v : Byte,
    v.toNat = ((s.reg a).toNat * (s.reg b).toNat) % 256 ∧
    exec (.mul (regByte a) (regByte b)) s = .next { s with regs := s.regs.set a v, pc := s.pc + 3 }

/-- DIV by a non-zero divisor: the quotient rounded down into regA, the pc by 3, nothing else (41_alu.md section 5;
the rounding is decision D8, log 18). -/
def Obligations.DivResult : Prop :=
  ∀ (s : State) (a b : RegIdx), s.reg b ≠ 0#8 → ∃ v : Byte,
    v.toNat = (s.reg a).toNat / (s.reg b).toNat ∧
    exec (.div (regByte a) (regByte b)) s = .next { s with regs := s.regs.set a v, pc := s.pc + 3 }

/-- DIV by zero, whatever the dividend: DivisionByZero with the pc, nothing else (41_alu.md section 5,
60_exceptions.md section 2; the Faulted state and the precise entry are decisions D10 and D11, log 5). -/
def Obligations.DivByZeroFaults : Prop :=
  ∀ (s : State) (a b : RegIdx), s.reg b = 0#8 →
    exec (.div (regByte a) (regByte b)) s = .next { s with run := .faulted (.divisionByZero s.pc) }

/-- CMP: the unsigned three-way outcome into `fl`, the pc by 3, nothing else (41_alu.md section 6). -/
def Obligations.CmpResult : Prop :=
  ∀ (s : State) (a b : RegIdx),
    exec (.cmp (regByte a) (regByte b)) s = .next
      { s with
        fl := if (s.reg a).toNat = (s.reg b).toNat then .equal
          else if (s.reg b).toNat < (s.reg a).toNat then .greaterThan else .lessThan
        pc := s.pc + 3 }

/-- The common rule of the five ALU instructions: format RR with both operands register indices; ADD, SUB and MUL
store the 8-bit sum, difference and product of the two register values at the start into regA and nothing else; DIV
(where its divisor is not zero) a value that depends on them alone; CMP writes `fl` from them and nothing else; all
do pc + 3. DIV's quotient is a statement of its own, because its rounding is decision D8 (log 18). -/
def Obligations.AluCommonForm : Prop :=
  (∀ a b : Byte, ∀ i ∈ [Instr.add a b, .sub a b, .mul a b, .div a b, .cmp a b],
    i.opcode.format = .rr ∧ i.regOperands = [a, b]) ∧
  (∀ s a b, exec (.add (regByte a) (regByte b)) s =
    .next { s with regs := s.regs.set a (s.reg a + s.reg b), pc := s.pc + 3 }) ∧
  (∀ s a b, exec (.sub (regByte a) (regByte b)) s =
    .next { s with regs := s.regs.set a (s.reg a - s.reg b), pc := s.pc + 3 }) ∧
  (∀ s a b, exec (.mul (regByte a) (regByte b)) s =
    .next { s with regs := s.regs.set a (s.reg a * s.reg b), pc := s.pc + 3 }) ∧
  (∃ q : Byte → Byte → Byte, ∀ s a b, s.reg b ≠ 0#8 → exec (.div (regByte a) (regByte b)) s =
    .next { s with regs := s.regs.set a (q (s.reg a) (s.reg b)), pc := s.pc + 3 }) ∧
  (∃ g : Byte → Byte → Flags, (∀ x y : Byte, g x y = .equal ↔ x.toNat = y.toNat) ∧
    (∀ x y : Byte, g x y = .greaterThan ↔ y.toNat < x.toNat) ∧
    (∀ x y : Byte, g x y = .lessThan ↔ x.toNat < y.toNat) ∧
    ∀ s a b, exec (.cmp (regByte a) (regByte b)) s =
      .next { s with fl := g (s.reg a) (s.reg b), pc := s.pc + 3 })

/-- Register 7 as an ALU operand, regA or regB, is legal: with regA = 7 ADD, SUB and MUL give the stack pointer the
wrapped result and raise no fault even where it wraps; DIV by a non-zero value and CMP complete too; and so with
regB = 7. -/
def Obligations.AluMayUseStackPointer : Prop :=
  ∀ (s : State) (k : RegIdx),
    (∃ t, exec (.add (regByte 7) (regByte k)) s = .next t ∧
      t.sp.toNat = (s.sp.toNat + (s.reg k).toNat) % 256 ∧ t.run = s.run) ∧
    (∃ t, exec (.sub (regByte 7) (regByte k)) s = .next t ∧
      (t.sp.toNat : Int) = ((s.sp.toNat : Int) - (s.reg k).toNat) % 256 ∧ t.run = s.run) ∧
    (∃ t, exec (.mul (regByte 7) (regByte k)) s = .next t ∧
      t.sp.toNat = (s.sp.toNat * (s.reg k).toNat) % 256 ∧ t.run = s.run) ∧
    (s.reg k ≠ 0#8 → ∃ t, exec (.div (regByte 7) (regByte k)) s = .next t ∧ t.run = s.run) ∧
    (∃ t, exec (.cmp (regByte 7) (regByte k)) s = .next t ∧ t.run = s.run ∧ t.fl ≠ .unset) ∧
    (∃ t, exec (.add (regByte k) (regByte 7)) s = .next t ∧
      (t.reg k).toNat = ((s.reg k).toNat + s.sp.toNat) % 256 ∧ t.run = s.run) ∧
    (∃ t, exec (.sub (regByte k) (regByte 7)) s = .next t ∧
      ((t.reg k).toNat : Int) = (((s.reg k).toNat : Int) - s.sp.toNat) % 256 ∧ t.run = s.run) ∧
    (∃ t, exec (.mul (regByte k) (regByte 7)) s = .next t ∧
      (t.reg k).toNat = ((s.reg k).toNat * s.sp.toNat) % 256 ∧ t.run = s.run) ∧
    (s.sp ≠ 0#8 → ∃ t, exec (.div (regByte k) (regByte 7)) s = .next t ∧ t.run = s.run) ∧
    (∃ t, exec (.cmp (regByte k) (regByte 7)) s = .next t ∧ t.run = s.run ∧ t.fl ≠ .unset)

/-! ### The stack -/

/-- PUSH with `sp` not 0: the pointer is decremented and the register, read after the decrement, is stored at the
new pointer and nowhere else; so PUSH R7 stores the decremented pointer (42_stack_subroutine.md section 2; the
sampling order is decision D12, log 9). -/
def Obligations.PushStoresBelow : Prop :=
  ∀ (s : State) (r : RegIdx), s.sp ≠ 0#8 →
    ∃ t, exec (.push (regByte r)) s = .next t ∧ t.sp.toNat = s.sp.toNat - 1 ∧
      t.mem.read (s.sp.toNat - 1) = (if r = 7 then t.sp else s.reg r) ∧
      (∀ a : Nat, a ≠ s.sp.toNat - 1 → t.mem.read a = s.mem.read a) ∧
      (∀ k, k ≠ 7 → t.reg k = s.reg k) ∧ t.pc = s.pc + 2 ∧ SameStatus s t

/-- StackFull: PUSH with `sp` = 0 appends the report and advances the pc by 2; memory, registers, flags and the run
state are unchanged. CALL with `sp` = 0 is not this condition: it ends in a fatal fault. -/
def Obligations.PushAtZeroReportsStackFull : Prop :=
  ∀ (s : State) (r : RegIdx), s.sp = 0#8 →
    exec (.push (regByte r)) s = .next { s with out := s.out ++ [.report .stackFull], pc := s.pc + 2 } ∧
    ∃ f, exec (.call (regByte r)) s = .next { s with run := .faulted f }

/-- POP into a register other than R7, with `sp` neither 0xF4 nor 0xFF: the register takes `M[sp]`, the pointer is
incremented, memory is unchanged (42_stack_subroutine.md section 3; a pointer above 0xF4 is followed literally,
decision D21, log 19). -/
def Obligations.PopLoadsTop : Prop :=
  ∀ (s : State) (r : RegIdx), r ≠ 7 → s.sp ≠ 0xF4#8 → s.sp ≠ 0xFF#8 →
    ∃ t, exec (.pop (regByte r)) s = .next t ∧ t.reg r = s.mem.read s.sp.toNat ∧
      t.sp.toNat = s.sp.toNat + 1 ∧ (∀ k, k ≠ r → k ≠ 7 → t.reg k = s.reg k) ∧ t.mem = s.mem ∧
      t.pc = s.pc + 2 ∧ SameStatus s t

/-- POP R7, with `sp` not 0xF4 and the loaded byte not 0xFF: the pointer ends as the loaded byte plus one
(42_stack_subroutine.md section 3; decision D12, log 9). -/
def Obligations.PopIntoStackPointer : Prop :=
  ∀ s : State, s.sp ≠ 0xF4#8 → s.mem.read s.sp.toNat ≠ 0xFF#8 →
    ∃ t, exec (.pop (regByte 7)) s = .next t ∧ t.sp.toNat = (s.mem.read s.sp.toNat).toNat + 1 ∧
      (∀ k, k ≠ 7 → t.reg k = s.reg k) ∧ t.mem = s.mem ∧ t.pc = s.pc + 2 ∧ SameStatus s t

/-- StackEmpty: POP with `sp` = 0xF4 appends the report and advances the pc by 2; nothing is read and nothing else
changes. RET has no such check: at the same `sp` it takes the byte above and steps the pointer. -/
def Obligations.PopAtSentinelReportsStackEmpty : Prop :=
  ∀ (s : State) (r : RegIdx), s.sp = 0xF4#8 →
    exec (.pop (regByte r)) s = .next { s with out := s.out ++ [.report .stackEmpty], pc := s.pc + 2 } ∧
    ∃ t, exec .ret s = .next t ∧ t.pc = (s.mem.read 0xF5).toNat ∧ t.sp = 0xF5#8 ∧ t.out = s.out ∧ t.run = s.run

/-- POP whose increment would leave 0..255 takes OutOfRangeAddress(256) and writes nothing
(42_stack_subroutine.md sections 1 and 3; decisions D9 and D12, logs 8 and 9; the Faulted state and the precise entry
are decisions D10 and D11, log 5). -/
def Obligations.PopPastTopFaults : Prop :=
  ∀ (s : State) (r : RegIdx),
    ((r ≠ 7 ∧ s.sp = 0xFF#8) ∨ (r = 7 ∧ s.sp ≠ 0xF4#8 ∧ s.mem.read s.sp.toNat = 0xFF#8)) →
    exec (.pop (regByte r)) s = .next { s with run := .faulted (.outOfRangeAddress 256 s.pc) }

/-- CALL with `sp` not 0, at an address where it can be fetched: `pc + 2` is stored at the current pointer and
nowhere else, the pointer is decremented, and the pc becomes the byte read after that at the operand plus one
(42_stack_subroutine.md section 4; the target's address is decision D13, log 4). -/
def Obligations.CallResult : Prop :=
  ∀ (s : State) (r : RegIdx), s.sp ≠ 0#8 → s.pc ≤ 253 →
    ∃ t, exec (.call (regByte r)) s = .next t ∧ (t.mem.read s.sp.toNat).toNat = s.pc + 2 ∧
      (∀ a : Nat, a ≠ s.sp.toNat → t.mem.read a = s.mem.read a) ∧ t.sp.toNat = s.sp.toNat - 1 ∧
      (∀ k, k ≠ 7 → t.reg k = s.reg k) ∧ t.pc = (t.mem.read (r.val + 1)).toNat ∧ SameStatus s t

/-- CALL with `sp` = 0 takes OutOfRangeAddress(-1) and writes nothing (42_stack_subroutine.md sections 1 and 4;
decision D9, log 8; the Faulted state and the precise entry are decisions D10 and D11, log 5). -/
def Obligations.CallAtZeroFaults : Prop :=
  ∀ (s : State) (r : RegIdx), s.sp = 0#8 →
    exec (.call (regByte r)) s = .next { s with run := .faulted (.outOfRangeAddress (-1) s.pc) }

/-- CALL does not read its register: with another value in any register but the stack pointer it does the same
(10_state.md section 1, 42_stack_subroutine.md section 4; decision D13, log 4). -/
def Obligations.CallIgnoresRegisterContent : Prop :=
  ∀ (s : State) (r k : RegIdx) (v : Byte), k ≠ 7 →
    exec (.call (regByte r)) (s.setReg k v) = mapNext (fun t => t.setReg k v) (exec (.call (regByte r)) s)

/-- RET with `sp` not 0xFF: the pc becomes the byte at `sp + 1`, the pointer is incremented, nothing else changes
(42_stack_subroutine.md section 5). -/
def Obligations.RetResult : Prop :=
  ∀ s : State, s.sp ≠ 0xFF#8 → ∃ v : Byte, v.toNat = s.sp.toNat + 1 ∧
    exec .ret s = .next { s with regs := s.regs.set 7 v, pc := (s.mem.read (s.sp.toNat + 1)).toNat }

/-- RET with `sp` = 0xFF takes OutOfRangeAddress(256) and writes nothing (42_stack_subroutine.md sections 1 and 5;
decision D9, log 8; the Faulted state and the precise entry are decisions D10 and D11, log 5). -/
def Obligations.RetAtTopFaults : Prop :=
  ∀ s : State, s.sp = 0xFF#8 →
    exec .ret s = .next { s with run := .faulted (.outOfRangeAddress 256 s.pc) }

/-- A RET undoes the CALL before it: wherever the pointer and the cell are as the CALL left them, the pc is the
address after the CALL and the pointer is as before it (42_stack_subroutine.md sections 5 and 6; it rests on
decision D13, log 4, only in that the CALL completes). -/
def Obligations.RetUndoesCall : Prop :=
  ∀ (s t u : State) (r : RegIdx), s.sp ≠ 0#8 → s.pc ≤ 253 → exec (.call (regByte r)) s = .next t →
    u.sp = t.sp → u.mem.read s.sp.toNat = t.mem.read s.sp.toNat →
    ∃ w, exec .ret u = .next w ∧ w.pc = s.pc + 2 ∧ w.sp = s.sp

/-- A PUSH and the POP after it: wherever the pointer and the cell are as the PUSH left them, and the pointer does
not stand at the sentinel, the popped register has the pushed value and the pointer is as before
(42_stack_subroutine.md section 3). -/
def Obligations.PopUndoesPush : Prop :=
  ∀ (s t u : State) (x y : RegIdx), x ≠ 7 → y ≠ 7 → s.sp ≠ 0#8 → s.sp ≠ 0xF5#8 →
    exec (.push (regByte x)) s = .next t → u.sp = t.sp →
    u.mem.read t.sp.toNat = t.mem.read t.sp.toNat →
    ∃ w, exec (.pop (regByte y)) u = .next w ∧ w.reg y = s.reg x ∧ w.sp = s.sp

/-- A CALL after a PUSH overwrites the pushed value: the cell PUSH wrote holds the return address
(42_stack_subroutine.md section 6). -/
def Obligations.CallOverwritesPushedValue : Prop :=
  ∀ (s t u : State) (x r : RegIdx), s.sp ≠ 0#8 → exec (.push (regByte x)) s = .next t → t.sp ≠ 0#8 →
    t.pc ≤ 253 → exec (.call (regByte r)) t = .next u →
    (u.mem.read (s.sp.toNat - 1)).toNat = t.pc + 2

/-! ### Branches -/

/-- JMP: the pc becomes the register's value, nothing else changes (43_branch.md section 2). -/
def Obligations.JmpResult : Prop :=
  ∀ (s : State) (r : RegIdx), exec (.jmp (regByte r)) s = .next { s with pc := (s.reg r).toNat }

/-- JEQ: to the register's value when `fl` is Equal, else the pc by 2; nothing else changes (43_branch.md
section 3). -/
def Obligations.JeqResult : Prop :=
  ∀ (s : State) (r : RegIdx),
    exec (.jeq (regByte r)) s =
      .next { s with pc := if s.fl = .equal then (s.reg r).toNat else s.pc + 2 }

/-- JNE: to the register's value when `fl` is GreaterThan, LessThan or Unset, the pc by 2 when it is Equal; nothing
else changes (43_branch.md section 4; the Unset case is decision D14, log 10). -/
def Obligations.JneResult : Prop :=
  ∀ (s : State) (r : RegIdx),
    exec (.jne (regByte r)) s = .next
      { s with
        pc := match s.fl with
          | .equal => s.pc + 2
          | .greaterThan => (s.reg r).toNat
          | .lessThan => (s.reg r).toNat
          | .unset => (s.reg r).toNat }

/-! ### What the host sees -/

/-- The codes the host sees: the flag byte `0b00000LGE`, bits 7:3 always 0 and the four states apart, and the codes
1 to 7 of the error kinds (10_state.md section 3, 60_exceptions.md section 1; decisions D2 and D11, logs 14
and 15). -/
def Obligations.HostVisibleCodes : Prop :=
  (∀ f : Flags, f.encoding.toNat < 8 ∧ (f.encoding.getLsbD 0 = true ↔ f = .equal) ∧
    (f.encoding.getLsbD 1 = true ↔ f = .greaterThan) ∧ (f.encoding.getLsbD 2 = true ↔ f = .lessThan)) ∧
  FatalFault.unsupportedAluOperation.code = 1 ∧
  (∀ op addr, (FatalFault.unknownOpcode op addr).code = 2 ∧ (Report.unknownOpcode op addr).code = some 2) ∧
  (∀ pc, (FatalFault.divisionByZero pc).code = 3) ∧ Report.stackFull.code = some 4 ∧
  Report.stackEmpty.code = some 5 ∧ (∀ v pc, (FatalFault.outOfRangeAddress v pc).code = 6) ∧
  (∀ b pc, (FatalFault.invalidRegisterIndex b pc).code = 7) ∧ Report.haltNotice.code = none

/-- The debug trace has the pc, the three bytes at it and the eight registers, where the three bytes are in range,
and says nothing elsewhere (60_exceptions.md section 8; the second half is the model's choice, log 22). -/
def Obligations.TraceFields : Prop :=
  ∀ s : State,
    (s.pc ≤ 253 → ∃ p : Byte, p.toNat = s.pc ∧
      s.trace = some [p, s.mem.read s.pc, s.mem.read (s.pc + 1), s.mem.read (s.pc + 2), s.reg 0, s.reg 1, s.reg 2,
        s.reg 3, s.reg 4, s.reg 5, s.reg 6, s.reg 7]) ∧
    (253 < s.pc → s.trace = none)
end

