-- ==== Sys2Proof/Laws/Decode.lean ====
section
/-! SUPPORT. The laws of the opcode map and of the operand check. -/

namespace Sys2Proof

/-- Every opcode is found again from its byte, so the map is injective. -/
theorem ofByte_opcodeByte (o : Opcode) : Opcode.ofByte? (opcodeByte o) = some o := by
  cases o <;> decide

/-- A byte that matches an opcode is that opcode's byte. -/
theorem opcodeByte_of_ofByte {b : Byte} {o : Opcode} (h : Opcode.ofByte? b = some o) : opcodeByte o = b := by
  simpa using List.find?_some h

/-- An instruction is well-formed exactly when the operand check finds nothing. -/
theorem badOperand_eq_none (i : Instr) : i.badOperand? = none ↔ i.wellFormed = true := by
  simp [Instr.badOperand?, Instr.wellFormed]

/-- Rebuilding an instruction from its opcode and its operand bytes, whatever follows them. -/
theorem withOperands_operands (i : Instr) (rest : List Byte) :
    i.opcode.withOperands ((i.operands ++ rest).getD 0 0#8) ((i.operands ++ rest).getD 1 0#8) = i := by
  cases i <;> rfl

/-- What the decoder can do: an unknown opcode, a bad register index, or the instruction. -/
theorem decode_cases (b0 b1 b2 : Byte) :
    (Opcode.ofByte? b0 = none ∧ decode b0 b1 b2 = .error (.unknownOpcode b0)) ∨
      ∃ o, Opcode.ofByte? b0 = some o ∧
        ((∃ b, (o.withOperands b1 b2).badOperand? = some b ∧ decode b0 b1 b2 = .error (.invalidRegisterIndex b)) ∨
          ((o.withOperands b1 b2).badOperand? = none ∧ decode b0 b1 b2 = .ok (o.withOperands b1 b2))) := by
  unfold decode
  cases ho : Opcode.ofByte? b0 with
  | none => exact .inl ⟨rfl, rfl⟩
  | some o =>
    refine .inr ⟨o, rfl, ?_⟩
    cases hb : (o.withOperands b1 b2).badOperand? with
    | none => exact .inr ⟨rfl, by simp [hb]⟩
    | some b => exact .inl ⟨b, rfl, by simp [hb]⟩

end Sys2Proof
end

