-- ==== Sys2Proof/Laws/State.lean ====
section
/-! SUPPORT. One lemma per field per update of the state, and the register laws. -/

namespace Sys2Proof.Machine

@[simp] theorem setReg_pc (s : State) (i : RegIdx) (v : Byte) : (s.setReg i v).pc = s.pc := rfl
@[simp] theorem setReg_fl (s : State) (i : RegIdx) (v : Byte) : (s.setReg i v).fl = s.fl := rfl
@[simp] theorem setReg_mem (s : State) (i : RegIdx) (v : Byte) : (s.setReg i v).mem = s.mem := rfl
@[simp] theorem setReg_run (s : State) (i : RegIdx) (v : Byte) : (s.setReg i v).run = s.run := rfl
@[simp] theorem setReg_out (s : State) (i : RegIdx) (v : Byte) : (s.setReg i v).out = s.out := rfl

/-- Reading a register after a register write. -/
theorem setReg_reg (s : State) (i k : RegIdx) (v : Byte) :
    (s.setReg i v).reg k = if k = i then v else s.reg k := by
  rcases eq_or_ne k i with rfl | h
  · simp [State.setReg, State.reg]
  · have : (i : Nat) ≠ k := fun e => h (Fin.ext e.symm)
    simp [State.setReg, State.reg, h, this]

@[simp] theorem setReg_reg_self (s : State) (i : RegIdx) (v : Byte) : (s.setReg i v).reg i = v := by
  simp [setReg_reg]

@[simp] theorem setReg_sp (s : State) (v : Byte) : (s.setReg Config.spIndex v).sp = v := by
  simp [State.sp]

theorem setReg_sp_of_ne (s : State) (i : RegIdx) (v : Byte) (h : i ≠ Config.spIndex) :
    (s.setReg i v).sp = s.sp := by
  simp [State.sp, setReg_reg, h.symm]

@[simp] theorem emit_regs (s : State) (e : Event) : (s.emit e).regs = s.regs := rfl
@[simp] theorem emit_reg (s : State) (e : Event) (k : RegIdx) : (s.emit e).reg k = s.reg k := rfl
@[simp] theorem emit_pc (s : State) (e : Event) : (s.emit e).pc = s.pc := rfl
@[simp] theorem emit_fl (s : State) (e : Event) : (s.emit e).fl = s.fl := rfl
@[simp] theorem emit_mem (s : State) (e : Event) : (s.emit e).mem = s.mem := rfl
@[simp] theorem emit_run (s : State) (e : Event) : (s.emit e).run = s.run := rfl
@[simp] theorem emit_out (s : State) (e : Event) : (s.emit e).out = s.out ++ [e] := rfl

@[simp] theorem advance_regs (s : State) (n : Nat) : (s.advance n).regs = s.regs := rfl
@[simp] theorem advance_reg (s : State) (n : Nat) (k : RegIdx) : (s.advance n).reg k = s.reg k := rfl
@[simp] theorem advance_pc (s : State) (n : Nat) : (s.advance n).pc = s.pc + n := rfl
@[simp] theorem advance_fl (s : State) (n : Nat) : (s.advance n).fl = s.fl := rfl
@[simp] theorem advance_mem (s : State) (n : Nat) : (s.advance n).mem = s.mem := rfl
@[simp] theorem advance_run (s : State) (n : Nat) : (s.advance n).run = s.run := rfl
@[simp] theorem advance_out (s : State) (n : Nat) : (s.advance n).out = s.out := rfl

@[simp] theorem jump_regs (s : State) (t : Byte) : (s.jump t).regs = s.regs := rfl
@[simp] theorem jump_reg (s : State) (t : Byte) (k : RegIdx) : (s.jump t).reg k = s.reg k := rfl
@[simp] theorem jump_pc (s : State) (t : Byte) : (s.jump t).pc = t.toNat := rfl
@[simp] theorem jump_fl (s : State) (t : Byte) : (s.jump t).fl = s.fl := rfl
@[simp] theorem jump_mem (s : State) (t : Byte) : (s.jump t).mem = s.mem := rfl
@[simp] theorem jump_run (s : State) (t : Byte) : (s.jump t).run = s.run := rfl
@[simp] theorem jump_out (s : State) (t : Byte) : (s.jump t).out = s.out := rfl

@[simp] theorem setFlags_regs (s : State) (f : Flags) : (s.setFlags f).regs = s.regs := rfl
@[simp] theorem setFlags_reg (s : State) (f : Flags) (k : RegIdx) : (s.setFlags f).reg k = s.reg k := rfl
@[simp] theorem setFlags_pc (s : State) (f : Flags) : (s.setFlags f).pc = s.pc := rfl
@[simp] theorem setFlags_fl (s : State) (f : Flags) : (s.setFlags f).fl = f := rfl
@[simp] theorem setFlags_mem (s : State) (f : Flags) : (s.setFlags f).mem = s.mem := rfl
@[simp] theorem setFlags_run (s : State) (f : Flags) : (s.setFlags f).run = s.run := rfl
@[simp] theorem setFlags_out (s : State) (f : Flags) : (s.setFlags f).out = s.out := rfl

@[simp] theorem halt_regs (s : State) : s.halt.regs = s.regs := rfl
@[simp] theorem halt_reg (s : State) (k : RegIdx) : s.halt.reg k = s.reg k := rfl
@[simp] theorem halt_pc (s : State) : s.halt.pc = s.pc := rfl
@[simp] theorem halt_fl (s : State) : s.halt.fl = s.fl := rfl
@[simp] theorem halt_mem (s : State) : s.halt.mem = s.mem := rfl
@[simp] theorem halt_run (s : State) : s.halt.run = .halted := rfl
@[simp] theorem halt_out (s : State) : s.halt.out = s.out := rfl

@[simp] theorem raise_regs (s : State) (f : FatalFault) : (s.raise f).regs = s.regs := rfl
@[simp] theorem raise_reg (s : State) (f : FatalFault) (k : RegIdx) : (s.raise f).reg k = s.reg k := rfl
@[simp] theorem raise_pc (s : State) (f : FatalFault) : (s.raise f).pc = s.pc := rfl
@[simp] theorem raise_fl (s : State) (f : FatalFault) : (s.raise f).fl = s.fl := rfl
@[simp] theorem raise_mem (s : State) (f : FatalFault) : (s.raise f).mem = s.mem := rfl
@[simp] theorem raise_run (s : State) (f : FatalFault) : (s.raise f).run = .faulted f := rfl
@[simp] theorem raise_out (s : State) (f : FatalFault) : (s.raise f).out = s.out := rfl

end Sys2Proof.Machine
end

