-- ==== Sys2Proof/Laws/Ops.lean ====
section
/-! SUPPORT. One lemma per shared operation, saying once what it can do. -/

namespace Sys2Proof.Machine

/-- The end of an instruction is always a next state: its result, or the fault entry at its start. -/
theorem finish_eq_next (s t : State) (r : Except FatalFault State) :
    finish s r = .next t ↔ r = .ok t ∨ ∃ f, r = .error f ∧ t = s.raise f := by
  cases r <;> simp [finish, eq_comm]

@[simp] theorem finish_ok (s t : State) : finish s (.ok t) = .next t := rfl

@[simp] theorem finish_error (s : State) (f : FatalFault) : finish s (.error f) = .next (s.raise f) := rfl

theorem memRead_of_lt (s : State) {a : Nat} (h : a < Config.memSize) :
    s.memRead a = .ok (s.mem.read a) := by
  have : (0 : Int) ≤ a ∧ (a : Int) < Config.memSize := ⟨by omega, by exact_mod_cast h⟩
  rw [State.memRead, if_pos this, Int.toNat_natCast]

theorem memRead_of_ge (s : State) {a : Nat} (h : Config.memSize ≤ a) :
    s.memRead a = .error (.outOfRangeAddress a s.pc) := by
  have : ¬((0 : Int) ≤ a ∧ (a : Int) < Config.memSize) := by
    rintro ⟨-, h'⟩; exact absurd h (Nat.not_le.2 (by exact_mod_cast h'))
  rw [State.memRead, if_neg this]

theorem memWrite_of_lt (s : State) {a : Nat} (h : a < Config.memSize) (v : Byte) :
    s.memWrite a v = .ok { s with mem := s.mem.write a v } := by
  have : (0 : Int) ≤ a ∧ (a : Int) < Config.memSize := ⟨by omega, by exact_mod_cast h⟩
  rw [State.memWrite, if_pos this, Int.toNat_natCast]

/-- What a memory write can do: an address in range and the cell written, or the fault. -/
theorem memWrite_cases (s : State) (addr : Int) (v : Byte) :
    (∃ a : Nat, addr = a ∧ a < Config.memSize ∧ s.memWrite addr v = .ok { s with mem := s.mem.write a v }) ∨
      ((addr < 0 ∨ (Config.memSize : Int) ≤ addr) ∧ s.memWrite addr v = .error (.outOfRangeAddress addr s.pc)) := by
  by_cases h : 0 ≤ addr ∧ addr < Config.memSize
  · obtain ⟨a, rfl⟩ := Int.eq_ofNat_of_zero_le h.1
    have ha : a < Config.memSize := by exact_mod_cast h.2
    exact .inl ⟨a, rfl, ha, memWrite_of_lt s ha v⟩
  · refine .inr ⟨?_, by rw [State.memWrite, if_neg h]⟩
    rw [not_and_or, not_le, not_lt] at h
    exact h

/-- What a memory read can do: the byte of an address in range, or the fault. -/
theorem memRead_cases (s : State) (addr : Int) :
    (∃ a : Nat, addr = a ∧ a < Config.memSize ∧ s.memRead addr = .ok (s.mem.read a)) ∨
      ((addr < 0 ∨ (Config.memSize : Int) ≤ addr) ∧ s.memRead addr = .error (.outOfRangeAddress addr s.pc)) := by
  by_cases h : 0 ≤ addr ∧ addr < Config.memSize
  · obtain ⟨a, rfl⟩ := Int.eq_ofNat_of_zero_le h.1
    have ha : a < Config.memSize := by exact_mod_cast h.2
    exact .inl ⟨a, rfl, ha, memRead_of_lt s ha⟩
  · refine .inr ⟨?_, by rw [State.memRead, if_neg h]⟩
    rw [not_and_or, not_le, not_lt] at h
    exact h

/-- The fetch where all three bytes are in range. -/
theorem fetch_of_lt (s : State) (h : s.pc + 2 < Config.memSize) :
    s.fetch = .ok (s.mem.read s.pc, s.mem.read (s.pc + 1), s.mem.read (s.pc + 2)) := by
  have h0 := memRead_of_lt s (a := s.pc) (by omega)
  have h1 := memRead_of_lt s (a := s.pc + 1) (by omega)
  have h2 := memRead_of_lt s (a := s.pc + 2) h
  simp only [Nat.cast_add, Nat.cast_one, Nat.cast_ofNat] at h1 h2
  simp only [State.fetch, h0, h1, h2]
  rfl

/-- The fetch beyond 253: the first address above 255 faults. -/
theorem fetch_of_ge (s : State) (h : Config.memSize ≤ s.pc + 2) :
    s.fetch = .error (.outOfRangeAddress (max s.pc Config.memSize : Nat) s.pc) := by
  rcases Nat.lt_or_ge s.pc Config.memSize with h0 | h0
  · have e0 := memRead_of_lt s h0
    rcases Nat.lt_or_ge (s.pc + 1) Config.memSize with h1 | h1
    · have e1 := memRead_of_lt s h1
      have e2 := memRead_of_ge s h
      have : s.pc + 2 = max s.pc Config.memSize := by simp only [Config.memSize] at *; omega
      rw [← this]
      simp only [Nat.cast_add, Nat.cast_one, Nat.cast_ofNat] at e1 e2
      simp only [State.fetch, e0, e1, e2, Nat.cast_add, Nat.cast_ofNat]
      rfl
    · have e1 := memRead_of_ge s h1
      have : s.pc + 1 = max s.pc Config.memSize := by simp only [Config.memSize] at *; omega
      rw [← this]
      simp only [Nat.cast_add, Nat.cast_one] at e1
      simp only [State.fetch, e0, e1, Nat.cast_add, Nat.cast_one]
      rfl
  · have e0 := memRead_of_ge s h0
    rw [Nat.max_eq_left h0]
    simp only [State.fetch, e0]
    rfl

theorem regOperand_of_lt (s : State) {b : Byte} (h : b.toNat < Config.nregs) :
    s.regOperand b = .ok ⟨b.toNat, h⟩ := by
  simp only [State.regOperand, dif_pos h]

theorem regOperand_of_ge (s : State) {b : Byte} (h : Config.nregs ≤ b.toNat) :
    s.regOperand b = .error (.invalidRegisterIndex b s.pc) := by
  simp only [State.regOperand, dif_neg (Nat.not_lt.2 h)]

theorem narrow_toNat (v : Int) : ((narrow v).toNat : Int) = v % 256 := by
  have : (0 : Int) ≤ v % 256 := Int.emod_nonneg _ (by decide)
  simp [narrow, BitVec.toNat_ofInt, Int.toNat_of_nonneg this]

/-- An exact result already in 0..255 is stored as it is. -/
theorem narrow_toNat_of_lt {n : Nat} (h : n < Config.memSize) : (narrow n).toNat = n := by
  have := narrow_toNat n
  simp only [Config.memSize] at h
  omega

/-- What stepping the stack pointer can do: the new value in range, or the fault. -/
theorem stepSp_cases (s : State) (v : Int) :
    (∃ n : Nat, v = n ∧ n < Config.memSize ∧ s.stepSp v = .ok (s.setReg Config.spIndex (narrow n))) ∨
      ((v < 0 ∨ (Config.memSize : Int) ≤ v) ∧ s.stepSp v = .error (.outOfRangeAddress v s.pc)) := by
  by_cases h : 0 ≤ v ∧ v < Config.memSize
  · obtain ⟨n, rfl⟩ := Int.eq_ofNat_of_zero_le h.1
    exact .inl ⟨n, rfl, by exact_mod_cast h.2, by rw [State.stepSp, if_pos h]⟩
  · refine .inr ⟨?_, by rw [State.stepSp, if_neg h]⟩
    rw [not_and_or, not_le, not_lt] at h
    exact h

/-- The outcome of a comparison is never Unset, and the three outcomes are exclusive. -/
theorem compareFlags_cases (va vb : Byte) :
    (va.toNat = vb.toNat ∧ compareFlags va vb = .equal) ∨
      (vb.toNat < va.toNat ∧ compareFlags va vb = .greaterThan) ∨
      (va.toNat < vb.toNat ∧ compareFlags va vb = .lessThan) := by
  unfold compareFlags
  split
  · next h => exact .inl ⟨by rw [h], rfl⟩
  · next hne =>
    have : va.toNat ≠ vb.toNat := fun h => hne (BitVec.eq_of_toNat_eq h)
    split
    · next h => exact .inr (.inl ⟨h, rfl⟩)
    · exact .inr (.inr ⟨by omega, rfl⟩)

end Sys2Proof.Machine
end

