-- ==== Sys2Proof/Laws/Step.lean ====
section
/-! SUPPORT. What a step can do, said once. -/

namespace Sys2Proof.Machine

/-- A step that answers a next state started in Running, and is the fetch fault, the decode fault or the
instruction's own meaning. -/
theorem step_cases {s t : State} (h : step s = .next t) :
    s.run = .running ∧
      ((Config.memSize ≤ s.pc + 2 ∧
          t = s.raise (.outOfRangeAddress (max s.pc Config.memSize : Nat) s.pc)) ∨
        (s.pc + 2 < Config.memSize ∧
          ((∃ e, decode (s.mem.read s.pc) (s.mem.read (s.pc + 1)) (s.mem.read (s.pc + 2)) = .error e ∧
              t = s.raiseDecodeError e) ∨
            ∃ i, decode (s.mem.read s.pc) (s.mem.read (s.pc + 1)) (s.mem.read (s.pc + 2)) = .ok i ∧
              exec i s = .next t))) := by
  unfold step at h
  cases hr : s.run with
  | halted => simp [hr] at h
  | faulted f => simp [hr] at h
  | running =>
    refine ⟨rfl, ?_⟩
    simp only [hr] at h
    rcases Nat.lt_or_ge (s.pc + 2) Config.memSize with hpc | hpc
    · refine .inr ⟨hpc, ?_⟩
      simp only [fetch_of_lt s hpc] at h
      cases hd : decode (s.mem.read s.pc) (s.mem.read (s.pc + 1)) (s.mem.read (s.pc + 2)) with
      | error e => exact .inl ⟨e, rfl, by simpa [hd, eq_comm] using h⟩
      | ok i => exact .inr ⟨i, rfl, by simpa [hd] using h⟩
    · refine .inl ⟨hpc, ?_⟩
      simp only [fetch_of_ge s hpc] at h
      simpa [eq_comm] using h

/-- After `withFetchWord` the next step fetches the three bytes of the word, in a running machine. -/
theorem fetch_withFetchWord (s : State) (nbits w : Nat) :
    (s.withFetchWord nbits w).run = .running ∧
      (s.withFetchWord nbits w).fetch = .ok (tableByte nbits w 0, tableByte nbits w 1, tableByte nbits w 2) := by
  refine ⟨rfl, ?_⟩
  have hpc : (s.withFetchWord nbits w).pc + 2 < Config.memSize := by
    simp only [State.withFetchWord]
    split
    · assumption
    · decide
  rw [fetch_of_lt _ hpc]
  have hread (k : Nat) (hk : k < 3) :
      (s.withFetchWord nbits w).mem.read ((s.withFetchWord nbits w).pc + k) = tableByte nbits w k := by
    have h := read_writeList s.mem (s.withFetchWord nbits w).pc
      [tableByte nbits w 0, tableByte nbits w 1, tableByte nbits w 2] ((s.withFetchWord nbits w).pc + k)
    rw [if_pos ⟨Nat.le_add_right _ _, Nat.add_lt_add_left (by simpa using hk) _⟩, Nat.add_sub_cancel_left] at h
    refine Eq.trans h ?_
    match k, hk with
    | 0, _ => rfl
    | 1, _ => rfl
    | 2, _ => rfl
  have h0 := hread 0 (by decide)
  rw [Nat.add_zero] at h0
  rw [h0, hread 1 (by decide), hread 2 (by decide)]

end Sys2Proof.Machine
end

