-- ==== Sys2Proof/Laws/Exec.lean ====
section
/-! SUPPORT. The operand check on the bytes that designate registers, and the shared shapes of the ALU and branch
instructions, and the four stack instructions as one equation each. -/

namespace Sys2Proof.Machine

@[simp] theorem regByte_toNat (r : RegIdx) : (regByte r).toNat = r.val := by
  have := r.isLt
  simp only [regByte, BitVec.toNat_ofNat, Config.nregs] at *
  omega

/-- A register's byte passes the operand check and designates that register. -/
@[simp] theorem regOperand_regByte (s : State) (r : RegIdx) : s.regOperand (regByte r) = .ok r := by
  rw [regOperand_of_lt s (b := regByte r) (by rw [regByte_toNat]; exact r.isLt)]
  simp

theorem isRegIndex_regByte (r : RegIdx) : isRegIndex (regByte r) = true := by
  simp only [isRegIndex, regByte_toNat, decide_eq_true_eq]; exact r.isLt

/-- The byte of a register determines it. -/
theorem regByte_inj {r k : RegIdx} : regByte r = regByte k ↔ r = k :=
  ⟨fun h => Fin.ext (by have := congrArg BitVec.toNat h; simpa using this), fun h => by rw [h]⟩

/-- What the operand check can do: a register whose byte it is, or the fault of a byte above 7. -/
theorem regOperand_cases (s : State) (b : Byte) :
    (∃ r, b = regByte r ∧ isRegIndex b = true ∧ s.regOperand b = .ok r) ∨
      (isRegIndex b = false ∧ s.regOperand b = .error (.invalidRegisterIndex b s.pc)) := by
  by_cases h : b.toNat < Config.nregs
  · have hb : b = regByte ⟨b.toNat, h⟩ := BitVec.eq_of_toNat_eq (by rw [regByte_toNat])
    exact .inl ⟨⟨b.toNat, h⟩, hb, by simp [isRegIndex, h], regOperand_of_lt s h⟩
  · exact .inr ⟨by simp [isRegIndex, h], regOperand_of_ge s (Nat.not_lt.1 h)⟩

/-- An ALU instruction on two registers, past its operand check. -/
theorem aluInstr_regByte (a b : RegIdx) (s : State) (f : RegIdx → Byte → Byte → Except FatalFault State) :
    aluInstr (regByte a) (regByte b) s f = finish s ((f a (s.reg a) (s.reg b)).map (·.advance 3)) := by
  simp only [aluInstr, regOperand_regByte]
  cases h : f a (s.reg a) (s.reg b) <;> simp [h, bind, Except.bind, pure, Except.pure, Except.map]

/-- A branch on a register, past its operand check. -/
theorem branchInstr_regByte (r : RegIdx) (s : State) (taken : Bool) :
    branchInstr (regByte r) s taken = .next (if taken then s.jump (s.reg r) else s.advance 2) := by
  simp [branchInstr, bind, Except.bind, pure, Except.pure]

/-- PUSH past its operand check. -/
theorem execPush_regByte (s : State) (r : RegIdx) :
    execPush (regByte r) s =
      if s.sp = 0#8 then .next ((s.emit (.report .stackFull)).advance 2)
      else
        let s₁ := s.setReg Config.spIndex (narrow (s.sp.toNat - 1 : Nat))
        .next ({ s₁ with mem := s.mem.write (s.sp.toNat - 1) (s₁.reg r) }.advance 2) := by
  have hlt : s.sp.toNat < Config.memSize := s.sp.isLt
  simp only [execPush, regOperand_regByte, bind, Except.bind]
  split
  · rfl
  · next h =>
    have h0 : s.sp.toNat ≠ 0 := fun e => h (BitVec.eq_of_toNat_eq e)
    have ha : s.pushAddress = ((s.sp.toNat - 1 : Nat) : Int) := by
      simp only [State.pushAddress]; omega
    have hin : s.sp.toNat - 1 < Config.memSize := by omega
    rw [ha]
    rcases stepSp_cases s ((s.sp.toNat - 1 : Nat) : Int) with ⟨n, hn, -, e⟩ | ⟨hbad, -⟩
    · obtain rfl : s.sp.toNat - 1 = n := by exact_mod_cast hn
      simp only [e, memWrite_of_lt _ hin]
      rfl
    · simp only [Config.memSize] at *; omega

/-- POP past its operand check. -/
theorem execPop_regByte (s : State) (r : RegIdx) :
    execPop (regByte r) s =
      if s.sp = Config.spReset then .next ((s.emit (.report .stackEmpty)).advance 2)
      else
        let s₁ := s.setReg r (s.mem.read s.sp.toNat)
        if s₁.sp.toNat = 255 then .next (s.raise (.outOfRangeAddress 256 s.pc))
        else .next ((s₁.setReg Config.spIndex (narrow (s₁.sp.toNat + 1 : Nat))).advance 2) := by
  have hlt : s.sp.toNat < Config.memSize := s.sp.isLt
  simp only [execPop, regOperand_regByte, bind, Except.bind, memRead_of_lt s hlt]
  split
  · rfl
  · generalize s.mem.read s.sp.toNat = v
    have h1 : (s.setReg r v).sp.toNat < 256 := (s.setReg r v).sp.isLt
    rcases stepSp_cases (s.setReg r v) ((s.setReg r v).sp.toNat + 1) with ⟨n, hn, hb, e⟩ | ⟨hbad, e⟩
    · obtain rfl : (s.setReg r v).sp.toNat + 1 = n := by exact_mod_cast hn
      simp only [Config.memSize] at hb
      rw [if_neg (by omega)]
      simp only [e]
      rfl
    · simp only [Config.memSize] at hbad
      have h255 : (s.setReg r v).sp.toNat = 255 := by omega
      rw [if_pos h255]
      simp only [h255] at e ⊢
      rw [e]
      rfl

/-- CALL past its operand check. -/
theorem execCall_regByte (s : State) (r : RegIdx) :
    execCall (regByte r) s =
      if s.sp = 0#8 then .next (s.raise (.outOfRangeAddress (-1) s.pc))
      else
        let m := s.mem.write s.sp.toNat s.returnAddress
        .next ({ s.setReg Config.spIndex (narrow (s.sp.toNat - 1 : Nat)) with mem := m }.jump (m.read (r.val + 1))) := by
  have hlt : s.sp.toNat < Config.memSize := s.sp.isLt
  have hr : r.val + 1 < Config.memSize := by have := r.isLt; simp only [Config.nregs, Config.memSize] at *; omega
  simp only [execCall, regOperand_regByte, bind, Except.bind]
  by_cases h : s.sp = 0#8
  · simp [h, State.stepSp]
  · rw [if_neg h]
    have h0 : s.sp.toNat ≠ 0 := fun e => h (BitVec.eq_of_toNat_eq e)
    have ha : (s.sp.toNat : Int) - 1 = ((s.sp.toNat - 1 : Nat) : Int) := by omega
    rw [ha]
    rcases stepSp_cases s ((s.sp.toNat - 1 : Nat) : Int) with ⟨n, hn, -, e⟩ | ⟨hbad, -⟩
    · obtain rfl : s.sp.toNat - 1 = n := by exact_mod_cast hn
      have hw := memWrite_of_lt (s.setReg Config.spIndex (narrow (s.sp.toNat - 1 : Nat))) hlt s.returnAddress
      simp only [e, State.callAddress, callTargetAddress, hw]
      have := memRead_of_lt { s.setReg Config.spIndex (narrow (s.sp.toNat - 1 : Nat)) with
        mem := (s.setReg Config.spIndex (narrow (s.sp.toNat - 1 : Nat))).mem.write s.sp.toNat s.returnAddress } hr
      simp only [Nat.cast_add, Nat.cast_one] at this
      rw [this]
      rfl
    · simp only [Config.memSize] at *; omega

/-- RET as one equation. -/
theorem execRet_eq (s : State) :
    execRet s =
      if s.sp.toNat = 255 then .next (s.raise (.outOfRangeAddress 256 s.pc))
      else .next ((s.setReg Config.spIndex (narrow (s.sp.toNat + 1 : Nat))).jump (s.mem.read (s.sp.toNat + 1))) := by
  have hlt : s.sp.toNat < Config.memSize := s.sp.isLt
  simp only [execRet, State.retAddress, bind, Except.bind]
  by_cases h : s.sp.toNat = 255
  · simp [h, State.memRead]
  · rw [if_neg h]
    have hin : s.sp.toNat + 1 < Config.memSize := by simp only [Config.memSize] at *; omega
    have hm := memRead_of_lt s hin
    simp only [Nat.cast_add, Nat.cast_one] at hm
    simp only [hm]
    rcases stepSp_cases s ((s.sp.toNat : Int) + 1) with ⟨n, hn, -, e⟩ | ⟨hbad, -⟩
    · obtain rfl : s.sp.toNat + 1 = n := by exact_mod_cast hn
      simp only [e]
      rfl
    · simp only [Config.memSize] at *; omega

end Sys2Proof.Machine
end

