-- ==== Sys2Proof/Laws/Effect.lean ====
section
/-! SUPPORT. What each instruction can do, said once: `exec_cases` is the inversion of `exec`, from which frames
and invariants follow without unfolding a meaning. -/

namespace Sys2Proof.Machine

/-- The next states of an instruction whose register operands are the bytes of registers. -/
def Effect (s t : State) : Instr → Prop
  | .hlt => t = (s.emit (.report .haltNotice)).halt
  | .ldi r imm => ∃ k, r = regByte k ∧ t = (s.setReg k imm).advance 3
  | .prn r => ∃ k, r = regByte k ∧ t = (s.emit (.prn (s.reg k))).advance 2
  | .add a b => ∃ j k, a = regByte j ∧ b = regByte k ∧
      t = (s.setReg j (narrow ((s.reg j).toNat + (s.reg k).toNat))).advance 3
  | .sub a b => ∃ j k, a = regByte j ∧ b = regByte k ∧
      t = (s.setReg j (narrow (((s.reg j).toNat : Int) - (s.reg k).toNat))).advance 3
  | .mul a b => ∃ j k, a = regByte j ∧ b = regByte k ∧
      t = (s.setReg j (narrow ((s.reg j).toNat * (s.reg k).toNat))).advance 3
  | .div a b => ∃ j k, a = regByte j ∧ b = regByte k ∧
      ((s.reg k = 0#8 ∧ t = s.raise (.divisionByZero s.pc)) ∨
        (s.reg k ≠ 0#8 ∧ t = (s.setReg j (narrow ((s.reg j).toNat / (s.reg k).toNat : Nat))).advance 3))
  | .cmp a b => ∃ j k, a = regByte j ∧ b = regByte k ∧
      t = (s.setFlags (compareFlags (s.reg j) (s.reg k))).advance 3
  | .push r => ∃ k, r = regByte k ∧
      ((s.sp = 0#8 ∧ t = (s.emit (.report .stackFull)).advance 2) ∨
        (s.sp ≠ 0#8 ∧ ∃ s₁, s₁ = s.setReg Config.spIndex (narrow (s.sp.toNat - 1 : Nat)) ∧
          t = ({ s₁ with mem := s.mem.write (s.sp.toNat - 1) (s₁.reg k) }).advance 2))
  | .pop r => ∃ k, r = regByte k ∧
      ((s.sp = Config.spReset ∧ t = (s.emit (.report .stackEmpty)).advance 2) ∨
        (s.sp ≠ Config.spReset ∧ ∃ s₁, s₁ = s.setReg k (s.mem.read s.sp.toNat) ∧
          ((s₁.sp.toNat = 255 ∧ t = s.raise (.outOfRangeAddress 256 s.pc)) ∨
            (s₁.sp.toNat ≠ 255 ∧
              t = (s₁.setReg Config.spIndex (narrow (s₁.sp.toNat + 1 : Nat))).advance 2))))
  | .call r => ∃ k, r = regByte k ∧
      ((s.sp = 0#8 ∧ t = s.raise (.outOfRangeAddress (-1) s.pc)) ∨
        (s.sp ≠ 0#8 ∧ ∃ m, m = s.mem.write s.sp.toNat s.returnAddress ∧
          t = ({ s.setReg Config.spIndex (narrow (s.sp.toNat - 1 : Nat)) with mem := m }).jump
            (m.read (k.val + 1))))
  | .ret =>
      (s.sp.toNat = 255 ∧ t = s.raise (.outOfRangeAddress 256 s.pc)) ∨
        (s.sp.toNat ≠ 255 ∧
          t = (s.setReg Config.spIndex (narrow (s.sp.toNat + 1 : Nat))).jump (s.mem.read (s.sp.toNat + 1)))
  | .jmp r => ∃ k, r = regByte k ∧ t = s.jump (s.reg k)
  | .jeq r => ∃ k, r = regByte k ∧ t = if s.fl.takesJeq then s.jump (s.reg k) else s.advance 2
  | .jne r => ∃ k, r = regByte k ∧ t = if s.fl.takesJne then s.jump (s.reg k) else s.advance 2

/-- An instruction that answers a next state has met the operand check's fault, or has its effect. -/
theorem exec_cases {i : Instr} {s t : State} (h : exec i s = .next t) :
    (∃ b, b ∈ i.regOperands ∧ isRegIndex b = false ∧ t = s.raise (.invalidRegisterIndex b s.pc)) ∨
      (i.wellFormed = true ∧ Effect s t i) := by
  cases i
  case hlt => exact .inr ⟨rfl, (Host.Outcome.next.inj h).symm⟩
  case ret =>
    refine .inr ⟨rfl, ?_⟩
    have h' : execRet s = .next t := h
    rw [execRet_eq] at h'
    split at h' <;> cases h'
    · next hs => exact .inl ⟨hs, rfl⟩
    · next hs => exact .inr ⟨hs, rfl⟩
  case add a b | sub a b | mul a b | cmp a b | div a b =>
    rcases regOperand_cases s a with ⟨j, rfl, ha, -⟩ | ⟨ha, e⟩
    · rcases regOperand_cases s b with ⟨k, rfl, hb, -⟩ | ⟨hb, e⟩
      · refine .inr ⟨by simp [Instr.wellFormed, Instr.regOperands, ha, hb], j, k, rfl, rfl, ?_⟩
        simp only [exec, execAdd, execSub, execMul, execDiv, execCmp, aluInstr_regByte] at h
        first
          | exact (Host.Outcome.next.inj h).symm
          | split at h
            · next hz => exact .inl ⟨hz, (Host.Outcome.next.inj h).symm⟩
            · next hz => exact .inr ⟨hz, (Host.Outcome.next.inj h).symm⟩
      · refine .inl ⟨b, by simp [Instr.regOperands], hb, ?_⟩
        simp only [exec, execAdd, execSub, execMul, execDiv, execCmp, aluInstr, regOperand_regByte, e, bind,
          Except.bind] at h
        exact (Host.Outcome.next.inj h).symm
    · refine .inl ⟨a, by simp [Instr.regOperands], ha, ?_⟩
      simp only [exec, execAdd, execSub, execMul, execDiv, execCmp, aluInstr, e, bind, Except.bind] at h
      exact (Host.Outcome.next.inj h).symm
  case ldi r _ | prn r | push r | pop r | call r | jmp r | jeq r | jne r =>
    rcases regOperand_cases s r with ⟨k, rfl, hr, -⟩ | ⟨hr, e⟩
    · refine .inr ⟨by simp [Instr.wellFormed, Instr.regOperands, hr], k, rfl, ?_⟩
      simp only [exec, execLdi, execPrn, execJmp, execJeq, execJne, branchInstr_regByte, execPush_regByte,
        execPop_regByte, execCall_regByte, regOperand_regByte, bind, Except.bind, pure, Except.pure, finish_ok,
        if_true] at h
      first
        | exact (Host.Outcome.next.inj h).symm
        | split at h
          · next hz => exact .inl ⟨hz, (Host.Outcome.next.inj h).symm⟩
          · next hz =>
            first
              | exact .inr ⟨hz, _, rfl, (Host.Outcome.next.inj h).symm⟩
              | refine .inr ⟨hz, _, rfl, ?_⟩
                split at h
                · next hn => exact .inl ⟨hn, (Host.Outcome.next.inj h).symm⟩
                · next hn => exact .inr ⟨hn, (Host.Outcome.next.inj h).symm⟩
    · refine .inl ⟨r, by simp [Instr.regOperands], hr, ?_⟩
      simp only [exec, execLdi, execPrn, execJmp, execJeq, execJne, branchInstr, execPush, execPop, execCall, e,
        bind, Except.bind, finish_error] at h
      exact (Host.Outcome.next.inj h).symm

end Sys2Proof.Machine
end

