-- ==== Sys2Proof/Laws/PerInstr.lean ====
section
/-! SUPPORT. The per-instruction family EncodingLength: an instruction's encoding is its opcode byte followed by
its operands, of the length its opcode alone decides, 1, 2 or 3 (30_encoding.md R80, R81). -/

namespace Sys2Proof.Laws.EncodingLength

/-- The encoding starts with the opcode byte and has the length the opcode decides. -/
def Statement (i : Instr) : Prop :=
  (encode i).head? = some (opcodeByte i.opcode) ∧ (encode i).length = 1 + i.opcode.format.operandCount ∧
    (encode i).length ≤ 3

theorem hlt : Statement .hlt := ⟨rfl, rfl, by decide⟩
theorem ldi (r imm : Byte) : Statement (.ldi r imm) := ⟨rfl, rfl, Nat.le_refl 3⟩
theorem prn (r : Byte) : Statement (.prn r) := ⟨rfl, rfl, Nat.le_succ 2⟩
theorem add (a b : Byte) : Statement (.add a b) := ⟨rfl, rfl, Nat.le_refl 3⟩
theorem sub (a b : Byte) : Statement (.sub a b) := ⟨rfl, rfl, Nat.le_refl 3⟩
theorem mul (a b : Byte) : Statement (.mul a b) := ⟨rfl, rfl, Nat.le_refl 3⟩
theorem div (a b : Byte) : Statement (.div a b) := ⟨rfl, rfl, Nat.le_refl 3⟩
theorem cmp (a b : Byte) : Statement (.cmp a b) := ⟨rfl, rfl, Nat.le_refl 3⟩
theorem push (r : Byte) : Statement (.push r) := ⟨rfl, rfl, Nat.le_succ 2⟩
theorem pop (r : Byte) : Statement (.pop r) := ⟨rfl, rfl, Nat.le_succ 2⟩
theorem call (r : Byte) : Statement (.call r) := ⟨rfl, rfl, Nat.le_succ 2⟩
theorem ret : Statement .ret := ⟨rfl, rfl, by decide⟩
theorem jmp (r : Byte) : Statement (.jmp r) := ⟨rfl, rfl, Nat.le_succ 2⟩
theorem jeq (r : Byte) : Statement (.jeq r) := ⟨rfl, rfl, Nat.le_succ 2⟩
theorem jne (r : Byte) : Statement (.jne r) := ⟨rfl, rfl, Nat.le_succ 2⟩

end Sys2Proof.Laws.EncodingLength
end

