-- ==== Sys2Proof/Tests/Slice0.lean ====
section
/-! SUPPORT. The model's own tests. Expected values come from spec/: the vectors of 95_test_vectors.md (their
numbers stand in the comments) and the encodings of 30_encoding.md. Then the witnesses: for every statement with
hypotheses, a state and operands that meet them. -/

namespace Sys2Proof.Tests

open Sys2Proof Sys2Proof.Machine

/-- A running state with some registers, some cells and the pc set, all else as at reset. -/
def st (pc : Nat) (cells : List (Nat × Byte)) (regs : List (RegIdx × Byte)) : State :=
  let s := regs.foldl (fun s r => s.setReg r.1 r.2) { State.reset with pc := pc }
  { s with mem := cells.foldl (fun m c => m.write c.1 c.2) s.mem }

/-- What a property of the next state is, none where there is no next state. -/
def after (o : Host.Outcome State Fault Refusal) {α : Type} (f : State → α) : Option α := (nextState? o).map f

/-! ### Decoding, one word per instruction, written from 30_encoding.md R81 and R86 -/

theorem test_decode_hlt : decode 0b00000001#8 0xFF#8 0xFF#8 = .ok .hlt := by decide
theorem test_decode_ldi : decode 0b10000010#8 0b00000011#8 0b11111111#8 = .ok (.ldi 3 255) := by decide
theorem test_decode_prn : decode 0b01000111#8 0b00000111#8 0x00#8 = .ok (.prn 7) := by decide
theorem test_decode_add : decode 0b10100000#8 0b00000001#8 0b00000010#8 = .ok (.add 1 2) := by decide
theorem test_decode_sub : decode 0b10100001#8 0b00000010#8 0b00000001#8 = .ok (.sub 2 1) := by decide
theorem test_decode_mul : decode 0b10100010#8 0b00000111#8 0b00000000#8 = .ok (.mul 7 0) := by decide
theorem test_decode_div : decode 0b10100011#8 0b00000000#8 0b00000111#8 = .ok (.div 0 7) := by decide
theorem test_decode_cmp : decode 0b10100111#8 0b00000100#8 0b00000101#8 = .ok (.cmp 4 5) := by decide
theorem test_decode_push : decode 0b01000101#8 0b00000110#8 0xFF#8 = .ok (.push 6) := by decide
theorem test_decode_pop : decode 0b01000110#8 0b00000001#8 0xFF#8 = .ok (.pop 1) := by decide
theorem test_decode_call : decode 0b01010000#8 0b00000111#8 0xFF#8 = .ok (.call 7) := by decide
theorem test_decode_ret : decode 0b00010001#8 0xFF#8 0xFF#8 = .ok .ret := by decide
theorem test_decode_jmp : decode 0b01010100#8 0b00000011#8 0xFF#8 = .ok (.jmp 3) := by decide
theorem test_decode_jeq : decode 0b01010101#8 0b00000010#8 0xFF#8 = .ok (.jeq 2) := by decide
theorem test_decode_jne : decode 0b01010110#8 0b00000101#8 0xFF#8 = .ok (.jne 5) := by decide

/-- F8: bytes next to opcode bytes are unknown. -/
theorem test_decode_unknown :
    [0x83#8, 0x81#8, 0x02#8, 0xFF#8, 0x00#8, 0xA4#8].map Opcode.ofByte? = [none, none, none, none, none, none] := by
  decide
/-- B5 and A28: the register check, `B1` first. -/
theorem test_decode_bad_register :
    decode 0x82#8 0x08#8 0x05#8 = .error (.invalidRegisterIndex 8) ∧
      decode 0xA0#8 0x09#8 0x08#8 = .error (.invalidRegisterIndex 9) := by decide
theorem test_decodeTableWord :
    decodeTableWord 8 0xA3 = some (.div 0 0) ∧ decodeTableWord 24 0x0403A3 = some (.div 3 4) ∧
      decodeTableWord 8 0x00 = none := by decide

/-! ### Well-formedness: the one check, an ill-formed term for each position it covers -/

theorem test_wellFormed_ldi_index_8 : (Instr.ldi 8 5).wellFormed = false := by decide
theorem test_wellFormed_prn_index_255 : (Instr.prn 255).wellFormed = false := by decide
theorem test_wellFormed_first_of_two : (Instr.add 8 0).wellFormed = false := by decide
theorem test_wellFormed_second_of_two : (Instr.cmp 0 8).wellFormed = false := by decide
theorem test_wellFormed_call_index_9 : (Instr.call 9).wellFormed = false := by decide
/-- Index 7 and every immediate pass (R83, R84). -/
theorem test_wellFormed_ldi_any_immediate : (Instr.ldi 7 255).wellFormed = true := by decide

/-! ### One step each, from 95_test_vectors.md -/

/-- B1. -/
theorem test_hlt_stays :
    after (step (st 10 [(10, 0x01)] [])) (fun t => (t.run, t.pc, t.out)) =
      some (.halted, 10, [.report .haltNotice]) := by decide
/-- F1: HLT at 253 executes. -/
theorem test_hlt_at_253 : after (step (st 253 [(253, 0x01)] [])) State.run = some .halted := by decide
/-- B4. -/
theorem test_ldi_moves_sp :
    after (step (st 0 [(0, 0x82), (1, 7), (2, 0x80)] [])) (fun t => (t.sp, t.pc)) = some (0x80, 3) := by decide
/-- F4: a 3-byte instruction at 253 leaves pc = 256. -/
theorem test_ldi_at_253 :
    after (step (st 253 [(253, 0x82), (255, 7)] [])) (fun t => (t.reg 0, t.pc)) = some (7, 256) := by decide
/-- B6. -/
theorem test_prn_sp :
    after (step (st 0 [(0, 0x47), (1, 7)] [])) (fun t => (t.out, t.pc)) = some ([.prn 244], 2) := by decide
/-- A2. -/
theorem test_add_wraps : after (exec (.add 0 1) (st 0 [] [(0, 0xFF), (1, 1)])) (·.reg 0) = some 0 := by decide
/-- A26. -/
theorem test_add_sp_wraps : after (exec (.add 7 0) (st 0 [] [(0, 0x10)])) State.sp = some 0x04 := by decide
/-- A7. -/
theorem test_sub_order : after (exec (.sub 0 1) (st 0 [] [(0, 3), (1, 5)])) (·.reg 0) = some 0xFE := by decide
/-- A9. -/
theorem test_sub_same : after (exec (.sub 1 1) (st 0 [] [(1, 0x7C)])) (·.reg 1) = some 0 := by decide
/-- A12. -/
theorem test_mul_low_byte : after (exec (.mul 0 1) (st 0 [] [(0, 255), (1, 255)])) (·.reg 0) = some 1 := by decide
/-- A13. -/
theorem test_mul_200_3 : after (exec (.mul 0 1) (st 0 [] [(0, 200), (1, 3)])) (·.reg 0) = some 0x58 := by decide
/-- A19. -/
theorem test_div_floor : after (exec (.div 0 1) (st 0 [] [(0, 200), (1, 7)])) (·.reg 0) = some 28 := by decide
/-- A24. -/
theorem test_div_zero :
    after (exec (.div 0 1) (st 4 [] [])) (fun t => (t.run, t.pc)) = some (.faulted (.divisionByZero 4), 4) := by decide
/-- C4: unsigned. -/
theorem test_cmp_unsigned : after (exec (.cmp 0 1) (st 0 [] [(0, 255), (1, 1)])) State.fl = some .greaterThan := by
  decide
/-- C6. -/
theorem test_cmp_less : after (exec (.cmp 0 1) (st 0 [] [(1, 255)])) State.fl = some .lessThan := by decide
/-- K4: PUSH R7 stores the decremented pointer. -/
theorem test_push_sp :
    after (exec (.push 7) (st 0 [] [])) (fun t => (t.sp, t.mem.read 0xF3)) = some (0xF3, 0xF3) := by decide
/-- K2: with sp = 1 PUSH overwrites its own opcode byte and executes as fetched. -/
theorem test_push_own_byte :
    after (step (st 0 [(0, 0x45)] [(0, 9), (7, 1)])) (fun t => (t.sp, t.mem.read 0, t.pc)) = some (0, 9, 2) := by
  decide
/-- K10: POP R7. -/
theorem test_pop_sp : after (exec (.pop 7) (st 0 [(0x80, 0x20)] [(7, 0x80)])) State.sp = some 0x21 := by decide
/-- K11. -/
theorem test_pop_sp_overflow :
    after (exec (.pop 7) (st 0 [(0x80, 0xFF)] [(7, 0x80)])) (fun t => (t.run, t.sp)) =
      some (.faulted (.outOfRangeAddress 256 0), 0x80) := by decide
/-- L1. -/
theorem test_call :
    after (step (st 3 [(3, 0x50), (4, 1), (2, 0x0A)] [])) (fun t => (t.mem.read 0xF4, t.sp, t.pc)) =
      some (5, 0xF3, 0x0A) := by decide
/-- L5: the target cell was just written. -/
theorem test_call_target_just_written :
    after (exec (.call 2) (st 0 [] [(7, 3)])) (fun t => (t.mem.read 3, t.sp, t.pc)) = some (2, 2, 2) := by decide
/-- L9: no empty check. -/
theorem test_ret_no_empty_check :
    after (exec .ret (st 0 [(0xF5, 3)] [])) (fun t => (t.pc, t.sp)) = some (3, 0xF5) := by decide
/-- L10. -/
theorem test_ret_top :
    after (exec .ret (st 9 [] [(7, 0xFF)])) State.run = some (.faulted (.outOfRangeAddress 256 9)) := by decide
/-- J10. -/
theorem test_jmp_sp : after (exec (.jmp 7) (st 20 [] [])) State.pc = some 0xF4 := by decide
/-- J2 and J5. -/
theorem test_jeq :
    after (exec (.jeq 3) { st 20 [] [(3, 12)] with fl := .equal }) State.pc = some 12 ∧
      after (exec (.jeq 3) (st 20 [] [(3, 12)])) State.pc = some 22 := by decide
/-- J6 and J9. -/
theorem test_jne :
    after (exec (.jne 3) { st 20 [] [(3, 12)] with fl := .equal }) State.pc = some 22 ∧
      after (exec (.jne 3) (st 20 [] [(3, 12)])) State.pc = some 12 := by decide
/-- J11: the operand check of an untaken branch. -/
theorem test_jeq_untaken_bad_register :
    after (exec (.jeq 8) { st 20 [] [] with fl := .lessThan }) State.run =
      some (.faulted (.invalidRegisterIndex 8 20)) := by decide
/-- F2 and F3: nothing is decoded at 254 and 255. -/
theorem test_fetch_254_255 :
    after (step (st 254 [(254, 0x01)] [])) State.run = some (.faulted (.outOfRangeAddress 256 254)) ∧
      after (step (st 255 [(255, 0x01)] [])) State.run = some (.faulted (.outOfRangeAddress 256 255)) := by decide
/-- F7. -/
theorem test_unknown_opcode :
    after (step (st 6 [(6, 0xA4)] [])) (fun t => (t.run, t.out, t.pc)) =
      some (.faulted (.unknownOpcode 0xA4 6), [.report (.unknownOpcode 0xA4 6)], 6) := by decide
/-- The loader of P1 leaves byte k at cell k. -/
theorem test_boot :
    after (boot [0x82, 0x00, 0x08, 0x47, 0x00, 0x01]) (fun t => (t.mem.read 0, t.mem.read 3, t.mem.read 6, t.pc)) =
      some (0x82, 0x47, 0x00, 0) := by decide
/-- A word placed for the fetch is what the next step runs, as the first instruction after reset. -/
theorem test_withFetchWord :
    after (step (State.reset.withFetchWord 24 0x080082)) (fun t => (t.reg 0, t.pc)) = some (8, 3) := by decide

/-! ### Witnesses: states and operands that meet the hypotheses of each statement that has some

The name after `witness_` is the statement's. Where a statement has clauses over one input, the witnesses stand at
the values where the clauses meet. -/

/-- A next state with a property that a computation shows. -/
theorem exists_next {o : Host.Outcome State Fault Refusal} {p : State → Bool}
    (h : (nextState? o).any p = true) : ∃ t, o = .next t ∧ p t = true := by
  cases o with
  | next t => exact ⟨t, rfl, by simpa [nextState?] using h⟩
  | fault r => simp [nextState?] at h
  | refused r => simp [nextState?] at h

/-- A next state, shown by a computation. -/
theorem answers_next {o : Host.Outcome State Fault Refusal} (h : (nextState? o).isSome = true) :
    ∃ t, o = .next t := by
  cases o with
  | next t => exact ⟨t, rfl⟩
  | fault r => simp [nextState?] at h
  | refused r => simp [nextState?] at h

theorem witness_DecodeOfEncode : (Instr.add 7 7).wellFormed = true := by decide
theorem witness_DecodedBytesAreTheEncoding : decode 0xA0#8 0x07#8 0x07#8 = .ok (.add 7 7) := by decide
theorem witness_DecodeRejectsByName :
    (∀ o, opcodeByte o ≠ 0xA4#8) ∧ (opcodeByte .hlt = 0x01#8 ∧ Opcode.hlt.format = .n) ∧
      (opcodeByte .prn = 0x47#8 ∧ Opcode.prn.format = .r) ∧ (opcodeByte .ldi = 0x82#8 ∧ Opcode.ldi.format = .ri) ∧
      (opcodeByte .add = 0xA0#8 ∧ Opcode.add.format = .rr) ∧ 8 ≤ (0x08#8).toNat ∧ ¬8 ≤ (0x07#8).toNat := by
  refine ⟨fun o => ?_, by decide⟩
  cases o <;> decide
theorem witness_StepRunsDecodedInstruction :
    let s := st 253 [(253, 0x01)] []
    s.run = .running ∧ s.pc ≤ 253 ∧
      decode (s.mem.read s.pc) (s.mem.read (s.pc + 1)) (s.mem.read (s.pc + 2)) = .ok .hlt := by decide
theorem witness_StepRunsEncodedInstruction :
    let s := st 253 [(253, 0x82), (254, 7), (255, 9)] []
    s.run = .running ∧ s.pc ≤ 253 ∧ (Instr.ldi 7 9).wellFormed = true ∧
      ∀ k, (h : k < (encode (.ldi 7 9)).length) → s.mem.read (s.pc + k) = (encode (.ldi 7 9))[k] := by decide
theorem witness_StepExistsExactlyWhenRunning :
    (st 0 [] []).run = .running ∧ (st 0 [] []).halt.run = .halted ∧
      ((st 0 [] []).raise (.divisionByZero 0)).run = .faulted (.divisionByZero 0) := by decide
theorem witness_FetchAboveTopFaults :
    ((st 254 [] []).run = .running ∧ 253 < (st 254 [] []).pc) ∧
      ((st 256 [] []).run = .running ∧ 253 < (st 256 [] []).pc) := by decide
theorem witness_UnknownOpcodeEntry :
    let s := st 253 [(253, 0x83)] []
    s.run = .running ∧ s.pc ≤ 253 ∧ ∀ o, opcodeByte o ≠ s.mem.read s.pc := by
  refine ⟨by decide, by decide, fun o => ?_⟩
  cases o <;> decide
theorem witness_BadRegisterByteFaultsInStep :
    (let s := st 253 [(253, 0x55), (254, 8)] [];
      s.run = .running ∧ s.pc ≤ 253 ∧ opcodeByte .jeq = s.mem.read s.pc ∧ Opcode.jeq.format ≠ .n ∧
        8 ≤ (s.mem.read (s.pc + 1)).toNat) ∧
    (let s := st 0 [(0, 0xA3), (1, 7), (2, 8)] [];
      s.run = .running ∧ s.pc ≤ 253 ∧ opcodeByte .div = s.mem.read s.pc ∧ Opcode.div.format = .rr ∧
        (s.mem.read (s.pc + 1)).toNat < 8 ∧ 8 ≤ (s.mem.read (s.pc + 2)).toNat) := by decide
theorem witness_IllFormedInstructionFaults :
    (Instr.div 9 1).badOperand? = some 9 ∧ (Instr.add 7 8).badOperand? = some 8 ∧
      (Instr.pop 8).badOperand? = some 8 := by decide
theorem witness_FatalFaultIsPrecise :
    (∃ t, step (st 0 [(0, 0xA3)] []) = .next t ∧ t.run = .faulted (.divisionByZero 0)) ∧
      (∃ t, step (st 0 [] []) = .next t ∧ t.run = .faulted (.unknownOpcode 0 0)) ∧
      (∃ t, step (st 254 [] []) = .next t ∧ t.run = .faulted (.outOfRangeAddress 256 254)) ∧
      ∃ t, step (st 0 [(0, 0x50), (1, 8)] []) = .next t ∧ t.run = .faulted (.invalidRegisterIndex 8 0) := by
  refine ⟨?_, ?_, ?_, ?_⟩
  · simpa using exists_next (p := fun t => t.run = .faulted (.divisionByZero 0)) (by decide)
  · simpa using exists_next (p := fun t => t.run = .faulted (.unknownOpcode 0 0)) (by decide)
  · simpa using exists_next (p := fun t => t.run = .faulted (.outOfRangeAddress 256 254)) (by decide)
  · simpa using exists_next (p := fun t => t.run = .faulted (.invalidRegisterIndex 8 0)) (by decide)
/-- The hypotheses at each clause's boundary: the divisor 0 and 1, the pointer 0xFF and 0xFE for POP and RET, the
loaded byte 0xFF for POP R7, the pointer 0 and 1 for CALL, and PUSH at 0, which never faults. -/
theorem witness_ExecFaultsExactlyWhereListed :
    ∀ c ∈ ([(.div 0 1, st 0 [] []), (.div 0 1, st 0 [] [(1, 1)]), (.pop 0, st 0 [] [(7, 0xFF)]),
        (.pop 0, st 0 [] [(7, 0xFE)]), (.pop 7, st 0 [(0xFE, 0xFF)] [(7, 0xFE)]), (.ret, st 0 [] [(7, 0xFF)]),
        (.ret, st 0 [] [(7, 0xFE)]), (.call 7, st 0 [] [(7, 0)]), (.call 7, st 0 [] [(7, 1)]),
        (.push 0, st 0 [] [(7, 0)])] : List (Instr × State)),
      c.1.wellFormed = true ∧ c.2.Safe ∧ ∃ t, exec c.1 c.2 = .next t := by
  intro c hc
  have h : c.1.wellFormed = true ∧ c.2.run = .running ∧ (nextState? (exec c.1 c.2)).isSome = true := by
    revert c; decide
  refine ⟨h.1, ?_, answers_next h.2.2⟩
  intro f hf
  rw [h.2.1] at hf
  cases hf
theorem witness_OnlyHltHalts : ∃ t, step (st 253 [(253, 0x01)] []) = .next t ∧ t.run = .halted := by
  simpa using exists_next (p := fun t => t.run = .halted) (by decide)
theorem witness_OutputIsAppendOnly :
    (∃ t, step (st 0 [(0, 0x47)] []) = .next t ∧ t.out = [.prn 0]) ∧
      ∃ t, step (st 0 [(0, 0x54)] []) = .next t ∧ t.out = [] := by
  constructor
  · simpa using exists_next (p := fun t => t.out = [.prn 0]) (by decide)
  · simpa using exists_next (p := fun t => t.out = []) (by decide)
theorem witness_OutputIsNeverRead : ∃ t, step (st 0 [(0, 0x47)] []) = .next t ∧ t.out = [.prn 0] :=
  witness_OutputIsAppendOnly.1
theorem witness_StepKeepsInvariant :
    let s := st 253 [(253, 0x82), (255, 7)] []
    s.Inv ∧ ∃ t, step s = .next t ∧ t.pc = 256 := by
  refine ⟨⟨by decide, by decide, trivial⟩, ?_⟩
  simpa using exists_next (p := fun t => t.pc = 256) (by decide)
theorem witness_LoaderContract :
    (List.replicate 256 0x01#8).length ≤ 256 ∧ 256 < (List.replicate 257 0x01#8).length := by
  simp only [List.length_replicate]; decide
theorem witness_ExitStatuses : ∀ op addr, FatalFault.divisionByZero 0 ≠ .unknownOpcode op addr := by
  intro op addr h; cases h
theorem witness_MemoryAccess :
    ((0 : Int) ≤ 0 ∧ (0 : Int) ≤ 255) ∧ ((0 : Int) ≤ 255 ∧ (255 : Int) ≤ 255) ∧
      ((-1 : Int) < 0 ∨ (255 : Int) < -1) ∧ ((256 : Int) < 0 ∨ (255 : Int) < 256) := by decide
theorem witness_RegisterFrame :
    (∃ t, exec (.pop 0) (st 0 [] [(7, 0xF3)]) = .next t) ∧ ¬ (Instr.pop 0).mayWrite 1 := by
  refine ⟨answers_next (by decide), ?_⟩
  simp only [Instr.mayWrite]; decide
theorem witness_MemoryFrame :
    (∃ t, exec (.call 0) (st 0 [] []) = .next t) ∧
      (Instr.call 0).storeAddress? (st 0 [] []) ≠ some ((0xF3 : Nat) : Int) ∧
      (Instr.push 0).storeAddress? (st 0 [] []) ≠ some ((0xF4 : Nat) : Int) :=
  ⟨answers_next (by decide), by decide, by decide⟩
theorem witness_StatusFrame :
    ∃ t, exec (.add 0 1) (st 0 [] []) = .next t ∧ (t.fl = .unset ∧ t.run = .running ∧ t.out = []) := by
  simpa using exists_next (p := fun t => t.fl = .unset ∧ t.run = .running ∧ t.out = []) (by decide)
theorem witness_FlagsOnlyByCmpReadOnlyByBranches :
    (∃ t, step { st 0 [(0, 0x56)] [] with fl := .equal } = .next t ∧ t.fl = .equal) ∧
      ((Instr.jne 0).opcode = .jeq ∨ (Instr.jne 0).opcode = .jne) ∧
      ((Instr.ret).opcode ≠ .cmp ∧ (Instr.ret).opcode ≠ .jeq ∧ (Instr.ret).opcode ≠ .jne) ∧
      ∃ t, exec (.jne 0) (st 0 [] []) = .next t ∧ t.pc = 0 := by
  refine ⟨?_, by decide, by decide, ?_⟩
  · simpa using exists_next (p := fun t => t.fl = .equal) (by decide)
  · simpa using exists_next (p := fun t => t.pc = 0) (by decide)
theorem witness_MemoryWrittenOnlyByLoaderPushCall :
    (∃ t, step (st 0 [(0, 0x45)] [(0, 5)]) = .next t ∧ t.mem ≠ (st 0 [(0, 0x45)] [(0, 5)]).mem) ∧
      (∃ s, boot [0x01] = .next s ∧ s.mem = [(0, 0x01)]) ∧
      (∃ t, exec (.push 0) (st 0 [] []) = .next t) ∧
      (Instr.push 0).opcode ≠ .pop ∧ (Instr.push 0).opcode ≠ .call ∧ (Instr.push 0).opcode ≠ .ret ∧
      (∃ t, exec (.pop 0) (st 0 [] []) = .next t) ∧
      (Instr.pop 0).opcode ≠ .push ∧ (Instr.pop 0).opcode ≠ .call := by
  refine ⟨?_, ?_, answers_next (by decide), by decide, by decide, by decide,
    answers_next (by decide), by decide, by decide⟩
  · simpa using exists_next (p := fun t => t.mem ≠ (st 0 [(0, 0x45)] [(0, 5)]).mem) (by decide)
  · simpa using exists_next (p := fun s => s.mem = [(0, 0x01)]) (by decide)
theorem witness_DivResult : (st 0 [] [(0, 255), (1, 1)]).reg 1 ≠ 0#8 := by decide
theorem witness_DivByZeroFaults : (st 0 [] [(0, 5)]).reg 1 = 0#8 := by decide
theorem witness_AluCommonForm : (st 0 [] [(1, 1)]).reg 1 ≠ 0#8 ∧ Instr.div 0 1 ∈ [Instr.div 0 1] := by decide
theorem witness_AluMayUseStackPointer : (st 0 [] [(1, 1)]).reg 1 ≠ 0#8 ∧ (st 0 [] []).sp ≠ 0#8 := by decide
theorem witness_PushStoresBelow : (st 0 [] [(7, 1)]).sp ≠ 0#8 ∧ (st 0 [] [(7, 0xFF)]).sp ≠ 0#8 := by decide
theorem witness_PushAtZeroReportsStackFull : (st 0 [] [(7, 0)]).sp = 0#8 := by decide
theorem witness_PopLoadsTop :
    (0 : RegIdx) ≠ 7 ∧ ((st 0 [] [(7, 0xF5)]).sp ≠ 0xF4#8 ∧ (st 0 [] [(7, 0xF5)]).sp ≠ 0xFF#8) ∧
      ((st 0 [] [(7, 0xFE)]).sp ≠ 0xF4#8 ∧ (st 0 [] [(7, 0xFE)]).sp ≠ 0xFF#8) := by decide
theorem witness_PopIntoStackPointer :
    let s := st 0 [(0xFF, 0xFE)] [(7, 0xFF)]
    s.sp ≠ 0xF4#8 ∧ s.mem.read s.sp.toNat ≠ 0xFF#8 := by decide
theorem witness_PopAtSentinelReportsStackEmpty : (st 0 [] []).sp = 0xF4#8 := by decide
theorem witness_PopPastTopFaults :
    ((0 : RegIdx) ≠ 7 ∧ (st 0 [] [(7, 0xFF)]).sp = 0xFF#8) ∧
      (let s := st 0 [(0xF3, 0xFF)] [(7, 0xF3)];
        s.sp ≠ 0xF4#8 ∧ s.mem.read s.sp.toNat = 0xFF#8) := by decide
theorem witness_CallResult :
    ((st 253 [] [(7, 1)]).sp ≠ 0#8 ∧ (st 253 [] [(7, 1)]).pc ≤ 253) ∧
      ((st 0 [] [(7, 0xFF)]).sp ≠ 0#8 ∧ (st 0 [] [(7, 0xFF)]).pc ≤ 253) := by decide
theorem witness_CallAtZeroFaults : (st 0 [] [(7, 0)]).sp = 0#8 := by decide
theorem witness_CallIgnoresRegisterContent : (1 : RegIdx) ≠ 7 := by decide
theorem witness_RetResult : (st 0 [] [(7, 0xFE)]).sp ≠ 0xFF#8 ∧ (st 0 [] [(7, 0)]).sp ≠ 0xFF#8 := by decide
theorem witness_RetAtTopFaults : (st 0 [] [(7, 0xFF)]).sp = 0xFF#8 := by decide
theorem witness_RetUndoesCall :
    let s := st 253 [] [(7, 1)]
    s.sp ≠ 0#8 ∧ s.pc ≤ 253 ∧ ∃ t, exec (.call 0) s = .next t ∧ (t.sp = 0#8 ∧ t.mem.read 1 = 0xFF#8) := by
  refine ⟨by decide, by decide, ?_⟩
  simpa using exists_next (p := fun t => t.sp = 0#8 ∧ t.mem.read 1 = 0xFF#8) (by decide)
theorem witness_PopUndoesPush :
    let s := st 0 [] [(0, 0xA5), (7, 0xF6)]
    (0 : RegIdx) ≠ 7 ∧ (1 : RegIdx) ≠ 7 ∧ s.sp ≠ 0#8 ∧ s.sp ≠ 0xF5#8 ∧
      ∃ t, exec (.push 0) s = .next t ∧ (t.sp = 0xF5#8 ∧ t.mem.read t.sp.toNat = 0xA5#8) := by
  refine ⟨by decide, by decide, by decide, by decide, ?_⟩
  simpa using exists_next (p := fun t => t.sp = 0xF5#8 ∧ t.mem.read t.sp.toNat = 0xA5#8) (by decide)
theorem witness_CallOverwritesPushedValue :
    let s := st 0 [] [(0, 0x0C), (7, 2)]
    s.sp ≠ 0#8 ∧ ∃ t, exec (.push 0) s = .next t ∧
      (t.sp ≠ 0#8 ∧ t.pc ≤ 253 ∧ (nextState? (exec (.call 1) t)).isSome = true) := by
  refine ⟨by decide, ?_⟩
  simpa using exists_next
    (p := fun t => t.sp ≠ 0#8 ∧ t.pc ≤ 253 ∧ (nextState? (exec (.call 1) t)).isSome = true) (by decide)
theorem witness_TraceFields : (st 253 [] []).pc ≤ 253 ∧ 253 < (st 254 [] []).pc := by decide

end Sys2Proof.Tests
end

section
/-! PROOFS. The access primitives of 00_scope.md: registers (R8) and memory (R9). -/

namespace Sys2Proof.Machine

/-! ### Registers -/

/-- The stack pointer after a write to any register: `x[7]` and `sp` are one cell (R8). -/
theorem setReg_sp_eq (s : State) (i : RegIdx) (v : Byte) :
    (s.setReg i v).sp = if i = Config.spIndex then v else s.sp := by
  split
  · next h => rw [h, setReg_sp]
  · next h => exact setReg_sp_of_ne s i v h

/-- A register write touches the registers only. -/
theorem setReg_restore_regs (s : State) (i : RegIdx) (v : Byte) :
    { s.setReg i v with regs := s.regs } = s := rfl

/-- Settles O24, from the register laws: what a read, and what `sp`, gives after a write. -/
theorem registerAccess : Obligations.RegisterAccess := fun s i k v =>
  ⟨setReg_reg s i k v, rfl, setReg_sp_eq s i v, setReg_restore_regs s i v⟩

/-! ### Memory -/

/-- A read outside 0..255, also at a negative address, is the fault of that address (R9). -/
theorem memRead_of_outside (s : State) {addr : Int} (h : addr < 0 ∨ 255 < addr) :
    s.memRead addr = .error (.outOfRangeAddress addr s.pc) := by
  obtain ⟨a, rfl, (ha : a < 256), -⟩ | ⟨-, hr⟩ := memRead_cases s addr
  · omega
  · exact hr

/-- A write outside 0..255, also at a negative address, is the fault of that address (R9). -/
theorem memWrite_of_outside (s : State) {addr : Int} (h : addr < 0 ∨ 255 < addr) (v : Byte) :
    s.memWrite addr v = .error (.outOfRangeAddress addr s.pc) := by
  obtain ⟨a, rfl, (ha : a < 256), -⟩ | ⟨-, hw⟩ := memWrite_cases s addr v
  · omega
  · exact hw

/-- Settles O25: an address in 0..255 is a natural number below 256, where a write is `Memory.write`; every other
address faults in both primitives. -/
theorem memoryAccess : Obligations.MemoryAccess := by
  intro s addr v
  refine ⟨fun h0 h255 => ?_, fun h => ⟨memRead_of_outside s h, memWrite_of_outside s h v⟩⟩
  obtain ⟨a, rfl⟩ := Int.eq_ofNat_of_zero_le h0
  have ha : a < 256 := by omega
  exact ⟨memRead_of_lt s ha, _, memWrite_of_lt s ha v, read_write_self s.mem a v,
    fun _ hb => read_write_of_ne s.mem v hb, rfl⟩

end Sys2Proof.Machine
end

section
/-! PROOFS. `exec_cases` read backwards: what an instruction can do it does, so that two runs of `exec` from related
states are compared through `Effect`. -/

namespace Sys2Proof.Machine

/-- Every instruction ends in `finish`, which answers a next state. -/
theorem finish_answers_next (s : State) (r : Except FatalFault State) : ∃ t, finish s r = .next t := by
  cases r with
  | ok t => exact ⟨t, rfl⟩
  | error f => exact ⟨s.raise f, rfl⟩

theorem exec_answers_next (i : Instr) (s : State) : ∃ t, exec i s = .next t := by
  cases i <;>
    simp only [exec, execHlt, execLdi, execPrn, execAdd, execSub, execMul, execDiv, execCmp, aluInstr, execPush,
      execPop, execCall, execRet, execJmp, execJeq, execJne, branchInstr] <;>
    exact finish_answers_next s _

/-- The first register-index byte above 7 is the fault, whatever the instruction (R113). -/
theorem exec_of_badOperand {i : Instr} {b : Byte} (h : i.badOperand? = some b) (s : State) :
    exec i s = .next (s.raise (.invalidRegisterIndex b s.pc)) := by
  cases i
  case hlt | ret => cases h
  case ldi r _ | prn r | push r | pop r | call r | jmp r | jeq r | jne r =>
    rcases regOperand_cases s r with ⟨-, -, hr, -⟩ | ⟨hr, e⟩
    · simp [Instr.badOperand?, Instr.regOperands, hr] at h
    · obtain rfl : r = b := by simpa [Instr.badOperand?, Instr.regOperands, hr] using h
      simp only [exec, execLdi, execPrn, execJmp, execJeq, execJne, branchInstr, execPush, execPop, execCall, e,
        bind, Except.bind, finish_error]
  case add a c | sub a c | mul a c | div a c | cmp a c =>
    simp only [exec, execAdd, execSub, execMul, execDiv, execCmp, aluInstr]
    rcases regOperand_cases s a with ⟨_, -, ha, ea⟩ | ⟨ha, ea⟩
    · rcases regOperand_cases s c with ⟨-, -, hc, -⟩ | ⟨hc, ec⟩
      · simp [Instr.badOperand?, Instr.regOperands, ha, hc] at h
      · obtain rfl : c = b := by simpa [Instr.badOperand?, Instr.regOperands, ha, hc] using h
        simp only [ea, ec, bind, Except.bind, finish_error]
    · obtain rfl : a = b := by simpa [Instr.badOperand?, Instr.regOperands, ha] using h
      simp only [ea, bind, Except.bind, finish_error]

/-- An instruction has each effect it can have. -/
theorem exec_of_effect {i : Instr} {s t : State} (h : Effect s t i) : exec i s = .next t := by
  cases i
  case hlt => exact congrArg _ h.symm
  case ldi | prn | jmp | jeq | jne =>
    obtain ⟨k, rfl, rfl⟩ := h
    simp [exec, execLdi, execPrn, execJmp, execJeq, execJne, branchInstr_regByte, bind, Except.bind, pure, Except.pure]
  case add | sub | mul | cmp =>
    obtain ⟨j, k, rfl, rfl, rfl⟩ := h
    simp [exec, execAdd, execSub, execMul, execCmp, aluInstr_regByte, Except.map]
  case div =>
    obtain ⟨j, k, rfl, rfl, ⟨hk, rfl⟩ | ⟨hk, rfl⟩⟩ := h <;> simp [exec, execDiv, aluInstr_regByte, Except.map, hk]
  case push =>
    obtain ⟨k, rfl, ⟨hs, rfl⟩ | ⟨hs, _, rfl, rfl⟩⟩ := h <;> simp [exec, execPush_regByte, hs]
  case pop =>
    obtain ⟨k, rfl, ⟨hs, rfl⟩ | ⟨hs, _, rfl, ⟨hn, rfl⟩ | ⟨hn, rfl⟩⟩⟩ := h
    · simp [exec, execPop_regByte, hs]
    · simp [exec, execPop_regByte, hs, hn]
    · simp [exec, execPop_regByte, hs, hn]
  case call =>
    obtain ⟨k, rfl, ⟨hs, rfl⟩ | ⟨hs, _, rfl, rfl⟩⟩ := h <;> simp [exec, execCall_regByte, hs]
  case ret =>
    obtain ⟨hs, rfl⟩ | ⟨hs, rfl⟩ := h <;> simp [exec, execRet_eq, hs]

end Sys2Proof.Machine
end

section
/-! PROOFS. The flags (10_state.md R27): only CMP writes them, and only JEQ and JNE read them. -/

namespace Sys2Proof.Machine

/-! ### Who reads them -/

/-- But for CMP, JEQ and JNE, an effect is the same effect under other flags, which it carries along. -/
theorem Effect.setFlags {i : Instr} {s t : State} (h : Effect s t i) (f : Flags) (hcmp : i.opcode ≠ .cmp)
    (hjeq : i.opcode ≠ .jeq) (hjne : i.opcode ≠ .jne) : Effect (s.setFlags f) (t.setFlags f) i := by
  cases i
  case cmp => exact absurd rfl hcmp
  case jeq => exact absurd rfl hjeq
  case jne => exact absurd rfl hjne
  case hlt => exact congrArg (State.setFlags · f) h
  case ldi | prn | jmp =>
    obtain ⟨k, rfl, rfl⟩ := h
    exact ⟨k, rfl, rfl⟩
  case add | sub | mul =>
    obtain ⟨j, k, rfl, rfl, rfl⟩ := h
    exact ⟨j, k, rfl, rfl, rfl⟩
  case div =>
    obtain ⟨j, k, rfl, rfl, ⟨hk, rfl⟩ | ⟨hk, rfl⟩⟩ := h
    · exact ⟨j, k, rfl, rfl, .inl ⟨hk, rfl⟩⟩
    · exact ⟨j, k, rfl, rfl, .inr ⟨hk, rfl⟩⟩
  case push | call =>
    obtain ⟨k, rfl, ⟨hs, rfl⟩ | ⟨hs, _, rfl, rfl⟩⟩ := h
    · exact ⟨k, rfl, .inl ⟨hs, rfl⟩⟩
    · exact ⟨k, rfl, .inr ⟨hs, _, rfl, rfl⟩⟩
  case pop =>
    obtain ⟨k, rfl, ⟨hs, rfl⟩ | ⟨hs, _, rfl, ⟨hn, rfl⟩ | ⟨hn, rfl⟩⟩⟩ := h
    · exact ⟨k, rfl, .inl ⟨hs, rfl⟩⟩
    · exact ⟨k, rfl, .inr ⟨hs, _, rfl, .inl ⟨hn, rfl⟩⟩⟩
    · exact ⟨k, rfl, .inr ⟨hs, _, rfl, .inr ⟨hn, rfl⟩⟩⟩
  case ret =>
    obtain ⟨hs, rfl⟩ | ⟨hs, rfl⟩ := h
    · exact .inl ⟨hs, rfl⟩
    · exact .inr ⟨hs, rfl⟩

/-- But for CMP, JEQ and JNE, an instruction does not read the flags: under other flags it answers the same next
state with those flags. -/
theorem exec_setFlags (i : Instr) (s : State) (f : Flags) (hcmp : i.opcode ≠ .cmp) (hjeq : i.opcode ≠ .jeq)
    (hjne : i.opcode ≠ .jne) : exec i (s.setFlags f) = mapNext (·.setFlags f) (exec i s) := by
  cases hbad : i.badOperand? with
  | some b =>
    rw [exec_of_badOperand hbad, exec_of_badOperand hbad]
    rfl
  | none =>
    obtain ⟨t, ht⟩ := exec_answers_next i s
    obtain ⟨b, hb, hr, -⟩ | ⟨-, he⟩ := exec_cases ht
    · have hwf : i.wellFormed = true := (badOperand_eq_none i).1 hbad
      exact absurd (List.all_eq_true.1 hwf b hb) (by simp [hr])
    · rw [ht, exec_of_effect (he.setFlags f hcmp hjeq hjne)]
      rfl

/-- A branch, taken or not, changes nothing but the pc. -/
theorem branch_eq_withPc (s : State) (v : Byte) (taken : Bool) :
    (if taken then s.jump v else s.advance 2) = { s with pc := if taken then v.toNat else s.pc + 2 } := by
  cases taken <;> rfl

/-- A branch under other flags, whether or not they make it taken, answers a next state that differs in the flags
and the pc alone. -/
theorem branchInstr_setFlags {r : Byte} {s t : State} {taken : Bool} (h : branchInstr r s taken = .next t)
    (f : Flags) (taken' : Bool) : ∃ p, branchInstr r (s.setFlags f) taken' = .next { t with fl := f, pc := p } := by
  rcases regOperand_cases s r with ⟨k, rfl, -, -⟩ | ⟨-, e⟩
  · rw [branchInstr_regByte, branch_eq_withPc] at h
    rw [branchInstr_regByte, branch_eq_withPc]
    cases h
    exact ⟨_, rfl⟩
  · have e' : (s.setFlags f).regOperand r = .error (.invalidRegisterIndex r s.pc) := e
    simp only [branchInstr, e, e', bind, Except.bind, finish_error] at h ⊢
    cases h
    exact ⟨_, rfl⟩

/-- JEQ and JNE read the flags for the pc alone. -/
theorem exec_branch_setFlags {i : Instr} {s t : State} (hi : i.opcode = .jeq ∨ i.opcode = .jne)
    (h : exec i s = .next t) (f : Flags) : ∃ p, exec i (s.setFlags f) = .next { t with fl := f, pc := p } := by
  cases i with
  | jeq r => exact branchInstr_setFlags h f f.takesJeq
  | jne r => exact branchInstr_setFlags h f f.takesJne
  | _ => simp [Instr.opcode] at hi

/-! ### Who writes them -/

/-- Only CMP writes the flags: every other instruction carries any flags along, so also those it starts with. -/
theorem exec_fl_of_ne_cmp {i : Instr} {s t : State} (h : exec i s = .next t) (hcmp : i.opcode ≠ .cmp) :
    t.fl = s.fl := by
  by_cases hi : i.opcode = .jeq ∨ i.opcode = .jne
  · obtain ⟨p, hp⟩ := exec_branch_setFlags hi h s.fl
    have ht : t = { t with fl := s.fl, pc := p } := Host.Outcome.next.inj (h.symm.trans hp)
    rw [ht]
  · rw [not_or] at hi
    have hs : exec i s = mapNext (·.setFlags s.fl) (exec i s) := exec_setFlags i s s.fl hcmp hi.1 hi.2
    rw [h] at hs
    have ht : t = t.setFlags s.fl := Host.Outcome.next.inj hs
    rw [ht, setFlags_fl]

theorem compareFlags_ne_unset (va vb : Byte) : compareFlags va vb ≠ .unset := by
  obtain ⟨-, h⟩ | ⟨-, h⟩ | ⟨-, h⟩ := compareFlags_cases va vb <;> simp [h]

/-- CMP overwrites the flags with the outcome of the comparison (R135). -/
theorem exec_cmp_regByte (a b : RegIdx) (s : State) :
    exec (.cmp (regByte a) (regByte b)) s =
      .next { s with fl := compareFlags (s.reg a) (s.reg b), pc := s.pc + 3 } :=
  exec_of_effect (i := .cmp (regByte a) (regByte b)) ⟨a, b, rfl, rfl, rfl⟩

/-- No instruction makes the flags Unset again. -/
theorem exec_fl_ne_unset {i : Instr} {s t : State} (h : exec i s = .next t) (hs : s.fl ≠ .unset) :
    t.fl ≠ .unset := by
  by_cases hcmp : i.opcode = .cmp
  · obtain ⟨_, -, -, rfl⟩ | ⟨-, he⟩ := exec_cases h
    · exact hs
    · cases i with
      | cmp a b =>
        obtain ⟨j, k, -, -, rfl⟩ := he
        exact compareFlags_ne_unset (s.reg j) (s.reg k)
      | _ => cases hcmp
  · rwa [exec_fl_of_ne_cmp h hcmp]

@[simp] theorem raiseDecodeError_fl (s : State) (e : DecodeError) : (s.raiseDecodeError e).fl = s.fl := by
  cases e <;> rfl

/-- No step makes the flags Unset again: a fault entry keeps them, and an instruction keeps or sets them. -/
theorem step_fl_ne_unset {s t : State} (h : step s = .next t) (hs : s.fl ≠ .unset) : t.fl ≠ .unset := by
  obtain ⟨-, ⟨-, rfl⟩ | ⟨-, ⟨e, -, rfl⟩ | ⟨i, -, hi⟩⟩⟩ := step_cases h
  · exact hs
  · rwa [raiseDecodeError_fl]
  · exact exec_fl_ne_unset hi hs

/-- Settles O29: CMP's outcome depends on the two registers alone, and every other instruction carries the flags
along, which only the pc of JEQ and JNE can tell. -/
theorem flagsOnlyByCmpReadOnlyByBranches : Obligations.FlagsOnlyByCmpReadOnlyByBranches := by
  refine ⟨fun _ _ _ => exec_fl_of_ne_cmp, fun a b s f => ?_, fun _ _ => step_fl_ne_unset, exec_setFlags,
    fun _ _ _ f hi h => exec_branch_setFlags hi h f⟩
  exact ⟨compareFlags (s.reg a) (s.reg b), compareFlags_ne_unset _ _, exec_cmp_regByte a b (s.setFlags f),
    exec_cmp_regByte a b s⟩

end Sys2Proof.Machine
end

section
/-! PROOFS. Memory (20_memory.md R59): PUSH and CALL write it in a step, the loader before the first step, and but
for the fetch only POP, CALL and RET read it. -/

namespace Sys2Proof.Machine

/-- What `exec` can do, with the operand byte of the fault named: the first bad one, which the instruction alone
decides. -/
theorem exec_badOperand_or_effect {i : Instr} {s t : State} (h : exec i s = .next t) :
    (∃ b, i.badOperand? = some b ∧ t = s.raise (.invalidRegisterIndex b s.pc)) ∨ Effect s t i := by
  cases hbad : i.badOperand? with
  | some b => exact .inl ⟨b, rfl, Host.Outcome.next.inj (h.symm.trans (exec_of_badOperand hbad s))⟩
  | none =>
    obtain ⟨b, hb, hr, -⟩ | ⟨-, he⟩ := exec_cases h
    · have hwf : i.wellFormed = true := (badOperand_eq_none i).1 hbad
      exact absurd (List.all_eq_true.1 hwf b hb) (by simp [hr])
    · exact .inr he

/-! ### Who writes it -/

/-- What an instruction can do to memory: nothing, PUSH's store below the stack pointer, or CALL's store at it. The
operand check's fault writes nothing. -/
theorem exec_mem_cases {i : Instr} {s t : State} (h : exec i s = .next t) :
    t.mem = s.mem ∨
      (∃ k v, i = .push (regByte k) ∧ s.sp ≠ 0#8 ∧ t.mem = s.mem.write (s.sp.toNat - 1) v) ∨
      ∃ k v, i = .call (regByte k) ∧ t.mem = s.mem.write s.sp.toNat v := by
  obtain ⟨_, -, -, rfl⟩ | ⟨-, he⟩ := exec_cases h
  · exact .inl rfl
  clear h
  cases i
  case push =>
    obtain ⟨k, rfl, ⟨-, rfl⟩ | ⟨hs, _, -, rfl⟩⟩ := he
    · exact .inl rfl
    · exact .inr (.inl ⟨k, _, rfl, hs, rfl⟩)
  case call =>
    obtain ⟨k, rfl, ⟨-, rfl⟩ | ⟨-, _, rfl, rfl⟩⟩ := he
    · exact .inl rfl
    · exact .inr (.inr ⟨k, _, rfl, rfl⟩)
  case hlt =>
    obtain rfl := he
    exact .inl rfl
  case ldi | prn | jmp =>
    obtain ⟨_, -, rfl⟩ := he
    exact .inl rfl
  case jeq | jne =>
    obtain ⟨_, -, rfl⟩ := he
    rw [branch_eq_withPc]
    exact .inl rfl
  case add | sub | mul | cmp =>
    obtain ⟨_, _, -, -, rfl⟩ := he
    exact .inl rfl
  case div =>
    obtain ⟨_, _, -, -, ⟨-, rfl⟩ | ⟨-, rfl⟩⟩ := he <;> exact .inl rfl
  case pop =>
    obtain ⟨_, -, ⟨-, rfl⟩ | ⟨-, _, rfl, ⟨-, rfl⟩ | ⟨-, rfl⟩⟩⟩ := he <;> exact .inl rfl
  case ret =>
    obtain ⟨-, rfl⟩ | ⟨-, rfl⟩ := he <;> exact .inl rfl

/-- The other 13 instructions leave memory as it was. -/
theorem exec_mem_of_ne_push_call {i : Instr} {s t : State} (h : exec i s = .next t) (hpush : i.opcode ≠ .push)
    (hcall : i.opcode ≠ .call) : t.mem = s.mem := by
  obtain hm | ⟨_, _, rfl, -⟩ | ⟨_, _, rfl, -⟩ := exec_mem_cases h
  · exact hm
  · exact absurd rfl hpush
  · exact absurd rfl hcall

@[simp] theorem raiseDecodeError_mem (s : State) (e : DecodeError) : (s.raiseDecodeError e).mem = s.mem := by
  cases e <;> rfl

/-- A step that changes memory runs an instruction: no fault entry of the fetch or of the decoder writes. -/
theorem exec_of_step_mem_ne {s t : State} (h : step s = .next t) (hm : t.mem ≠ s.mem) :
    ∃ i, exec i s = .next t := by
  obtain ⟨-, ⟨-, rfl⟩ | ⟨-, ⟨e, -, rfl⟩ | ⟨i, -, hi⟩⟩⟩ := step_cases h
  · exact absurd rfl hm
  · exact absurd (raiseDecodeError_mem s e) hm
  · exact ⟨i, hi⟩

/-- A step that changes memory is a PUSH, which changes no cell but the one below the stack pointer, or a CALL, which
changes no cell but the one at it. -/
theorem step_mem_ne_cases {s t : State} (h : step s = .next t) (hm : t.mem ≠ s.mem) :
    ∃ r : RegIdx,
      (exec (.push (regByte r)) s = .next t ∧
        ∀ a : Nat, (a : Int) ≠ s.sp.toNat - 1 → t.mem.read a = s.mem.read a) ∨
      (exec (.call (regByte r)) s = .next t ∧ ∀ a : Nat, a ≠ s.sp.toNat → t.mem.read a = s.mem.read a) := by
  obtain ⟨i, hi⟩ := exec_of_step_mem_ne h hm
  obtain hsame | ⟨r, v, rfl, hsp, hw⟩ | ⟨r, v, rfl, hw⟩ := exec_mem_cases hi
  · exact absurd hsame hm
  · have h0 : s.sp.toNat ≠ 0 := fun e => hsp (BitVec.eq_of_toNat_eq e)
    refine ⟨r, .inl ⟨hi, fun a ha => ?_⟩⟩
    rw [hw, read_write_of_ne s.mem v (by omega)]
  · refine ⟨r, .inr ⟨hi, fun a ha => ?_⟩⟩
    rw [hw, read_write_of_ne s.mem v ha]

/-! ### The loader -/

/-- A launch that is not refused starts from reset with the image written from `LOAD_BASE` on (R222). -/
theorem boot_eq_next {image : List Byte} {s : State} (h : boot image = .next s) :
    s = { State.reset with mem := State.reset.mem.writeList Config.loadBase image } := by
  unfold boot at h
  split at h
  · exact (Host.Outcome.next.inj h).symm
  · cases h

/-- After the loader, cell `a` has byte `a` of the image. -/
theorem read_boot {image : List Byte} {s : State} (h : boot image = .next s) (a : Nat) (ha : a < image.length) :
    s.mem.read a = image[a] := by
  rw [boot_eq_next h, read_writeList, if_pos (by simpa using ha)]
  simp [ha]

/-- The loader touches memory only. -/
theorem boot_restore_mem {image : List Byte} {s : State} (h : boot image = .next s) :
    { s with mem := [] } = State.reset := by
  rw [boot_eq_next h]
  rfl

/-! ### Who reads it -/

/-- But for POP, CALL and RET, an effect is the same effect from any other memory, but for the memory it leaves. -/
theorem Effect.withMem {i : Instr} {s t : State} (h : Effect s t i) (m : Memory) (hpop : i.opcode ≠ .pop)
    (hcall : i.opcode ≠ .call) (hret : i.opcode ≠ .ret) :
    ∃ m', Effect { s with mem := m } { t with mem := m' } i := by
  cases i
  case pop => exact absurd rfl hpop
  case call => exact absurd rfl hcall
  case ret => exact absurd rfl hret
  case push =>
    obtain ⟨k, rfl, ⟨hs, rfl⟩ | ⟨hs, _, rfl, rfl⟩⟩ := h
    · exact ⟨m, k, rfl, .inl ⟨hs, rfl⟩⟩
    · exact ⟨_, k, rfl, .inr ⟨hs, _, rfl, rfl⟩⟩
  case hlt =>
    obtain rfl := h
    exact ⟨m, rfl⟩
  case ldi | prn | jmp =>
    obtain ⟨k, rfl, rfl⟩ := h
    exact ⟨m, k, rfl, rfl⟩
  case jeq | jne =>
    obtain ⟨k, rfl, rfl⟩ := h
    refine ⟨m, k, rfl, ?_⟩
    rw [branch_eq_withPc, branch_eq_withPc]
    rfl
  case add | sub | mul | cmp =>
    obtain ⟨j, k, rfl, rfl, rfl⟩ := h
    exact ⟨m, j, k, rfl, rfl, rfl⟩
  case div =>
    obtain ⟨j, k, rfl, rfl, ⟨hk, rfl⟩ | ⟨hk, rfl⟩⟩ := h
    · exact ⟨m, j, k, rfl, rfl, .inl ⟨hk, rfl⟩⟩
    · exact ⟨m, j, k, rfl, rfl, .inr ⟨hk, rfl⟩⟩

/-- But for POP, CALL and RET, an instruction does not read memory: from any other memory it answers the same next
state, but for the memory it leaves. -/
theorem exec_withMem {i : Instr} {s t : State} (h : exec i s = .next t) (m : Memory) (hpop : i.opcode ≠ .pop)
    (hcall : i.opcode ≠ .call) (hret : i.opcode ≠ .ret) :
    ∃ m', exec i { s with mem := m } = .next { t with mem := m' } := by
  obtain ⟨b, hb, rfl⟩ | he := exec_badOperand_or_effect h
  · exact ⟨m, exec_of_badOperand hb _⟩
  · obtain ⟨m', he'⟩ := he.withMem m hpop hcall hret
    exact ⟨m', exec_of_effect he'⟩

/-- Settles O30: who writes memory in a step, what the loader writes, and who does not read it. -/
theorem memoryWrittenOnlyByLoaderPushCall : Obligations.MemoryWrittenOnlyByLoaderPushCall :=
  ⟨fun _ _ => step_mem_ne_cases, fun _ _ _ => exec_mem_of_ne_push_call,
    fun _ _ h => ⟨read_boot h, boot_restore_mem h⟩, fun _ _ _ m h => exec_withMem h m⟩

end Sys2Proof.Machine
end

section
/-! PROOFS. The ALU (41_alu.md R130, R138): each instruction's next state in byte arithmetic, for any two registers,
the stack pointer among them. -/

namespace Sys2Proof.Machine

/-! ### Narrowing is byte arithmetic (R136) -/

/-- Narrowing is the cast of the integers into the ring of bytes. -/
theorem narrow_eq_intCast (v : Int) : narrow v = (v : Byte) := rfl

/-- The value of a byte, cast back, is that byte. -/
theorem intCast_toNat (x : Byte) : ((x.toNat : Int) : Byte) = x := by
  rw [Int.cast_natCast, BitVec.natCast_eq_ofNat, BitVec.ofNat_toNat, BitVec.setWidth_eq]

theorem narrow_add (x y : Byte) : narrow (x.toNat + y.toNat) = x + y := by
  rw [narrow_eq_intCast, Int.cast_add, intCast_toNat, intCast_toNat]

theorem narrow_sub (x y : Byte) : narrow ((x.toNat : Int) - y.toNat) = x - y := by
  rw [narrow_eq_intCast, Int.cast_sub, intCast_toNat, intCast_toNat]

theorem narrow_mul (x y : Byte) : narrow (x.toNat * y.toNat) = x * y := by
  rw [narrow_eq_intCast, Int.cast_mul, intCast_toNat, intCast_toNat]

/-- The quotient rounded down fits a byte, so it is stored as it is. -/
theorem narrow_div (x y : Byte) : narrow (x.toNat / y.toNat : Nat) = x / y := by
  rw [narrow_eq_intCast, ← BitVec.toNat_udiv, intCast_toNat]

/-- Byte subtraction is the difference modulo 256, a negative one as well (R7). -/
theorem toNat_sub_emod (x y : Byte) : ((x - y).toNat : Int) = ((x.toNat : Int) - y.toNat) % 256 := by
  rw [← narrow_sub, narrow_toNat]

/-! ### The next state of each instruction -/

/-- ADD stores the byte sum (R131). -/
theorem exec_add_regByte (s : State) (a b : RegIdx) :
    exec (.add (regByte a) (regByte b)) s = .next ((s.setReg a (s.reg a + s.reg b)).advance 3) := by
  rw [← narrow_add]
  exact exec_of_effect (i := .add (regByte a) (regByte b)) ⟨a, b, rfl, rfl, rfl⟩

/-- SUB stores the byte difference (R132). -/
theorem exec_sub_regByte (s : State) (a b : RegIdx) :
    exec (.sub (regByte a) (regByte b)) s = .next ((s.setReg a (s.reg a - s.reg b)).advance 3) := by
  rw [← narrow_sub]
  exact exec_of_effect (i := .sub (regByte a) (regByte b)) ⟨a, b, rfl, rfl, rfl⟩

/-- MUL stores the byte product (R133). -/
theorem exec_mul_regByte (s : State) (a b : RegIdx) :
    exec (.mul (regByte a) (regByte b)) s = .next ((s.setReg a (s.reg a * s.reg b)).advance 3) := by
  rw [← narrow_mul]
  exact exec_of_effect (i := .mul (regByte a) (regByte b)) ⟨a, b, rfl, rfl, rfl⟩

/-- DIV by a non-zero divisor stores the byte quotient (R134). -/
theorem exec_div_regByte (s : State) (a b : RegIdx) (h : s.reg b ≠ 0#8) :
    exec (.div (regByte a) (regByte b)) s = .next ((s.setReg a (s.reg a / s.reg b)).advance 3) := by
  rw [← narrow_div]
  exact exec_of_effect (i := .div (regByte a) (regByte b)) ⟨a, b, rfl, rfl, .inr ⟨h, rfl⟩⟩

/-! ### The common form (R130) -/

/-- The five ALU instructions have format RR, both operands register indices. -/
theorem alu_format_regOperands {a b : Byte} {i : Instr}
    (h : i ∈ [Instr.add a b, .sub a b, .mul a b, .div a b, .cmp a b]) :
    i.opcode.format = .rr ∧ i.regOperands = [a, b] := by
  simp only [List.mem_cons, List.not_mem_nil, or_false] at h
  obtain rfl | rfl | rfl | rfl | rfl := h <;> exact ⟨rfl, rfl⟩

theorem compareFlags_eq_equal (x y : Byte) : compareFlags x y = .equal ↔ x.toNat = y.toNat := by
  obtain ⟨h, e⟩ | ⟨h, e⟩ | ⟨h, e⟩ := compareFlags_cases x y <;>
    simp only [e, reduceCtorEq, true_iff, false_iff] <;> omega

theorem compareFlags_eq_greaterThan (x y : Byte) : compareFlags x y = .greaterThan ↔ y.toNat < x.toNat := by
  obtain ⟨h, e⟩ | ⟨h, e⟩ | ⟨h, e⟩ := compareFlags_cases x y <;>
    simp only [e, reduceCtorEq, true_iff, false_iff] <;> omega

theorem compareFlags_eq_lessThan (x y : Byte) : compareFlags x y = .lessThan ↔ x.toNat < y.toNat := by
  obtain ⟨h, e⟩ | ⟨h, e⟩ | ⟨h, e⟩ := compareFlags_cases x y <;>
    simp only [e, reduceCtorEq, true_iff, false_iff] <;> omega

/-- Settles O40, from the next state of each instruction; DIV's value is the byte quotient, and CMP's the comparison. -/
theorem aluCommonForm : Obligations.AluCommonForm :=
  ⟨fun _ _ _ => alu_format_regOperands, exec_add_regByte, exec_sub_regByte, exec_mul_regByte,
    ⟨fun x y => x / y, exec_div_regByte⟩,
    ⟨compareFlags, compareFlags_eq_equal, compareFlags_eq_greaterThan, compareFlags_eq_lessThan,
      fun s a b => exec_cmp_regByte a b s⟩⟩

/-! ### Wrapping without a fault (R138) -/

/-- ADD wraps modulo 256 in any register and keeps the run state. -/
theorem exec_add_wraps (s : State) (a b : RegIdx) :
    ∃ t, exec (.add (regByte a) (regByte b)) s = .next t ∧
      (t.reg a).toNat = ((s.reg a).toNat + (s.reg b).toNat) % 256 ∧ t.run = s.run := by
  refine ⟨_, exec_add_regByte s a b, ?_, rfl⟩
  rw [advance_reg, setReg_reg_self, BitVec.toNat_add]

/-- SUB wraps modulo 256 in any register and keeps the run state. -/
theorem exec_sub_wraps (s : State) (a b : RegIdx) :
    ∃ t, exec (.sub (regByte a) (regByte b)) s = .next t ∧
      ((t.reg a).toNat : Int) = (((s.reg a).toNat : Int) - (s.reg b).toNat) % 256 ∧ t.run = s.run := by
  refine ⟨_, exec_sub_regByte s a b, ?_, rfl⟩
  rw [advance_reg, setReg_reg_self, toNat_sub_emod]

/-- MUL wraps modulo 256 in any register and keeps the run state. -/
theorem exec_mul_wraps (s : State) (a b : RegIdx) :
    ∃ t, exec (.mul (regByte a) (regByte b)) s = .next t ∧
      (t.reg a).toNat = ((s.reg a).toNat * (s.reg b).toNat) % 256 ∧ t.run = s.run := by
  refine ⟨_, exec_mul_regByte s a b, ?_, rfl⟩
  rw [advance_reg, setReg_reg_self, BitVec.toNat_mul]

/-- DIV by a non-zero divisor keeps the run state. -/
theorem exec_div_run (s : State) (a b : RegIdx) (h : s.reg b ≠ 0#8) :
    ∃ t, exec (.div (regByte a) (regByte b)) s = .next t ∧ t.run = s.run :=
  ⟨_, exec_div_regByte s a b h, rfl⟩

/-- CMP keeps the run state and leaves the flags set. -/
theorem exec_cmp_run (s : State) (a b : RegIdx) :
    ∃ t, exec (.cmp (regByte a) (regByte b)) s = .next t ∧ t.run = s.run ∧ t.fl ≠ .unset :=
  ⟨_, exec_cmp_regByte a b s, rfl, compareFlags_ne_unset _ _⟩

/-- Settles O41: no ALU instruction treats R7 apart, so what holds of any two registers holds with R7 as either; `sp`
is the value of R7. -/
theorem aluMayUseStackPointer : Obligations.AluMayUseStackPointer := fun s k =>
  ⟨exec_add_wraps s 7 k, exec_sub_wraps s 7 k, exec_mul_wraps s 7 k, exec_div_run s 7 k, exec_cmp_run s 7 k,
    exec_add_wraps s k 7, exec_sub_wraps s k 7, exec_mul_wraps s k 7, exec_div_run s k 7, exec_cmp_run s k 7⟩

end Sys2Proof.Machine
end

section
/-! PROOFS. The stack's recoverable conditions (60_exceptions.md R191, R192): PUSH at pointer 0 and POP at the sentinel
report and skip; CALL and RET, at the same pointers, know no such condition. -/

namespace Sys2Proof.Machine

/-! ### StackFull (R191) -/

/-- PUSH at pointer 0 reports StackFull and skips; the register is not read. -/
theorem exec_push_of_sp_zero {s : State} (h : s.sp = 0#8) (r : RegIdx) :
    exec (.push (regByte r)) s = .next ((s.emit (.report .stackFull)).advance 2) :=
  exec_of_effect (i := .push (regByte r)) ⟨r, rfl, .inl ⟨h, rfl⟩⟩

/-- CALL at pointer 0 would step it to -1, which is out of range (R157). -/
theorem exec_call_of_sp_zero {s : State} (h : s.sp = 0#8) (r : RegIdx) :
    exec (.call (regByte r)) s = .next (s.raise (.outOfRangeAddress (-1) s.pc)) :=
  exec_of_effect (i := .call (regByte r)) ⟨r, rfl, .inl ⟨h, rfl⟩⟩

/-- Settles O43: PUSH takes its report branch, CALL its fault branch. -/
theorem pushAtZeroReportsStackFull : Obligations.PushAtZeroReportsStackFull := fun _ r h =>
  ⟨exec_push_of_sp_zero h r, _, exec_call_of_sp_zero h r⟩

/-! ### StackEmpty (R192) -/

/-- POP at the sentinel reports StackEmpty and skips; the register is not written. -/
theorem exec_pop_of_sp_reset {s : State} (h : s.sp = Config.spReset) (r : RegIdx) :
    exec (.pop (regByte r)) s = .next ((s.emit (.report .stackEmpty)).advance 2) :=
  exec_of_effect (i := .pop (regByte r)) ⟨r, rfl, .inl ⟨h, rfl⟩⟩

/-- RET below the top of memory jumps to the byte above the pointer and steps the pointer, at the sentinel as well
(R154). -/
theorem exec_ret_of_sp_ne_top {s : State} (h : s.sp.toNat ≠ 255) :
    exec .ret s =
      .next ((s.setReg Config.spIndex (narrow (s.sp.toNat + 1 : Nat))).jump (s.mem.read (s.sp.toNat + 1))) :=
  exec_of_effect (i := .ret) (.inr ⟨h, rfl⟩)

@[simp] theorem jump_sp (s : State) (t : Byte) : (s.jump t).sp = s.sp := rfl

/-- Settles O46: POP takes its report branch; RET steps the sentinel 0xF4, which is not the top of memory, to 0xF5. -/
theorem popAtSentinelReportsStackEmpty : Obligations.PopAtSentinelReportsStackEmpty := by
  intro s r h
  have hsp : s.sp.toNat = 0xF4 := by rw [h]; rfl
  refine ⟨exec_pop_of_sp_reset h r, _, exec_ret_of_sp_ne_top (by omega), ?_, ?_, rfl, rfl⟩
  · rw [jump_pc, hsp]
  · rw [jump_sp, setReg_sp, hsp]
    decide

end Sys2Proof.Machine
end

section
/-! PROOFS. The decoder (30_encoding.md sections 1 to 4): what it answers by opcode and by format, and that decoding and
encoding undo each other. -/

namespace Sys2Proof

/-! ### The opcode byte -/

/-- The opcode map is injective (R86). -/
theorem opcodeByte_injective : Function.Injective opcodeByte := fun o p h =>
  Option.some.inj (by rw [← ofByte_opcodeByte o, h, ofByte_opcodeByte p])

/-- The table has every opcode. -/
theorem mem_allOpcodes (o : Opcode) : o ∈ allOpcodes := by
  cases o <;> decide

/-- A byte matches an opcode exactly when it is that opcode's byte. -/
theorem ofByte_eq_some {b : Byte} {o : Opcode} : Opcode.ofByte? b = some o ↔ opcodeByte o = b :=
  ⟨opcodeByte_of_ofByte, fun h => h ▸ ofByte_opcodeByte o⟩

/-- A byte matches no opcode exactly when it is none of the 15 bytes (R88). -/
theorem ofByte_eq_none {b : Byte} : Opcode.ofByte? b = none ↔ ∀ o, opcodeByte o ≠ b := by
  simp only [Option.eq_none_iff_forall_ne_some, ne_eq, ofByte_eq_some]

/-- Settles O4: a byte gives back its opcode, so the bytes are distinct; the unmatched ones are counted. -/
theorem opcodeBytesDistinct : Obligations.OpcodeBytesDistinct :=
  ⟨fun _ _ h => opcodeByte_injective h, rfl, mem_allOpcodes, by decide +kernel, rfl⟩

/-! ### What the decoder answers -/

/-- The decoder reports an unknown opcode for the bytes that match none. -/
theorem decode_of_ofByte_eq_none {b0 : Byte} (h : Opcode.ofByte? b0 = none) (b1 b2 : Byte) :
    decode b0 b1 b2 = .error (.unknownOpcode b0) := by
  simp only [decode, h]

/-- After an opcode's byte the operand check decides: its byte is the rejection. -/
theorem decode_opcodeByte_of_bad {o : Opcode} {b1 b2 b : Byte} (h : (o.withOperands b1 b2).badOperand? = some b) :
    decode (opcodeByte o) b1 b2 = .error (.invalidRegisterIndex b) := by
  simp only [decode, ofByte_opcodeByte, h]

/-- After an opcode's byte an instruction that passes the operand check is accepted. -/
theorem decode_opcodeByte_of_wellFormed {o : Opcode} {b1 b2 : Byte} (h : (o.withOperands b1 b2).wellFormed = true) :
    decode (opcodeByte o) b1 b2 = .ok (o.withOperands b1 b2) := by
  simp only [decode, ofByte_opcodeByte, (badOperand_eq_none _).2 h]

/-- An accepted instruction is well-formed, and is the one its opcode byte and the latched bytes give. -/
theorem decode_eq_ok {b0 b1 b2 : Byte} {i : Instr} (h : decode b0 b1 b2 = .ok i) :
    ∃ o, opcodeByte o = b0 ∧ o.withOperands b1 b2 = i ∧ i.wellFormed = true := by
  obtain ⟨-, e⟩ | ⟨o, ho, ⟨_, -, e⟩ | ⟨hwf, e⟩⟩ := decode_cases b0 b1 b2
  · rw [e] at h; cases h
  · rw [e] at h; cases h
  · rw [e] at h
    obtain rfl := Except.ok.inj h
    exact ⟨o, opcodeByte_of_ofByte ho, rfl, (badOperand_eq_none _).1 hwf⟩

/-- A rejection names the unmatched opcode byte, or a register-index byte above 7. -/
theorem decode_eq_error {b0 b1 b2 : Byte} {e : DecodeError} (h : decode b0 b1 b2 = .error e) :
    (Opcode.ofByte? b0 = none ∧ e = .unknownOpcode b0) ∨
      ∃ b, isRegIndex b = false ∧ e = .invalidRegisterIndex b := by
  obtain ⟨hb, he⟩ | ⟨o, -, ⟨b, hb, he⟩ | ⟨-, he⟩⟩ := decode_cases b0 b1 b2
  · exact .inl ⟨hb, Except.error.inj (h.symm.trans he)⟩
  · exact .inr ⟨b, by simpa using List.find?_some hb, Except.error.inj (h.symm.trans he)⟩
  · rw [he] at h; cases h

/-! ### Decode and encode -/

/-- Whatever bytes follow it, the encoding of a well-formed instruction decodes to it: its opcode byte gives the
opcode, and the opcode with the operand bytes the instruction. -/
theorem decodeList_encode_append (i : Instr) (rest : List Byte) (h : i.wellFormed = true) :
    decodeList (encode i ++ rest) = .ok i := by
  have hi : i.opcode.withOperands ((i.operands ++ rest).getD 0 0#8) ((i.operands ++ rest).getD 1 0#8) = i :=
    withOperands_operands i rest
  calc decodeList (encode i ++ rest)
      = decode (opcodeByte i.opcode) ((i.operands ++ rest).getD 0 0#8) ((i.operands ++ rest).getD 1 0#8) := rfl
    _ = .ok (i.opcode.withOperands ((i.operands ++ rest).getD 0 0#8) ((i.operands ++ rest).getD 1 0#8)) :=
        decode_opcodeByte_of_wellFormed (by rw [hi]; exact h)
    _ = .ok i := by rw [hi]

/-- Settles O1, by rebuilding the instruction from its opcode and its operand bytes. -/
theorem decodeOfEncode : Obligations.DecodeOfEncode := decodeList_encode_append

/-- Three latched bytes that begin with the encoding of a well-formed instruction decode to it. -/
theorem decode_of_encode_prefix {i : Instr} {b0 b1 b2 : Byte} (hwf : i.wellFormed = true)
    (h : encode i <+: [b0, b1, b2]) : decode b0 b1 b2 = .ok i := by
  obtain ⟨rest, hrest⟩ := h
  have hdec := decodeList_encode_append i rest hwf
  rw [hrest] at hdec
  exact hdec

/-- No encoding is longer than the three bytes a fetch latches (R80, R82). -/
theorem encode_length_le (i : Instr) : (encode i).length ≤ 3 := by
  cases i <;> simp [encode, Instr.operands]

/-- The encoding of an opcode's instruction begins the bytes it was built from: no format drops a bit. -/
theorem encode_withOperands_prefix (o : Opcode) (b1 b2 : Byte) :
    encode (o.withOperands b1 b2) <+: [opcodeByte o, b1, b2] := by
  cases o
  case hlt | ret => exact ⟨[b1, b2], rfl⟩
  case prn | push | pop | call | jmp | jeq | jne => exact ⟨[b2], rfl⟩
  case ldi | add | sub | mul | div | cmp => exact ⟨[], rfl⟩

/-- Settles O2: an accepted instruction is built from the opcode byte and the latched operand bytes. -/
theorem decodedBytesAreTheEncoding : Obligations.DecodedBytesAreTheEncoding := by
  intro b0 b1 b2 i h
  obtain ⟨o, rfl, rfl, hwf⟩ := decode_eq_ok h
  exact ⟨hwf, encode_withOperands_prefix o b1 b2⟩

/-- Settles O5: each word is the encoding of its instruction, HLT's followed by bytes of no meaning. -/
theorem wordsDecode : Obligations.WordsDecode :=
  ⟨decode_of_encode_prefix (i := .ldi 3 0xFF) (by decide) (by decide),
    decode_of_encode_prefix (i := .sub 2 5) (by decide) (by decide),
    decode_of_encode_prefix (i := .push 6) (by decide) (by decide),
    decode_of_encode_prefix (i := .call 7) (by decide) (by decide),
    decode_of_encode_prefix (i := .jne 3) (by decide) (by decide),
    decode_of_encode_prefix (i := .hlt) (by decide) (by decide)⟩

/-! ### Rejection by format -/

/-- The latched bytes that a format types as register indices, in the order of the check (R81, R113). -/
def Format.regIndexBytes : Format → Byte → Byte → List Byte
  | .n, _, _ => []
  | .r, b1, _ => [b1]
  | .ri, b1, _ => [b1]
  | .rr, b1, b2 => [b1, b2]

/-- The register operands of a decoded instruction are the bytes its format types as register indices. -/
theorem regOperands_withOperands (o : Opcode) (b1 b2 : Byte) :
    (o.withOperands b1 b2).regOperands = o.format.regIndexBytes b1 b2 := by
  cases o <;> rfl

/-- The operand check of a decoded instruction looks for the first byte above 7 among those of its format. -/
theorem badOperand_withOperands (o : Opcode) (b1 b2 : Byte) :
    (o.withOperands b1 b2).badOperand? = (o.format.regIndexBytes b1 b2).find? (8 ≤ ·.toNat) := by
  rw [Instr.badOperand?, regOperands_withOperands]
  congr 1
  funext b
  simp [isRegIndex, ← decide_not]

/-- `B1` is the first register-index byte of every format that has one. -/
theorem find_regIndexBytes_of_b1 {f : Format} (hf : f ≠ .n) {b1 : Byte} (h : 8 ≤ b1.toNat) (b2 : Byte) :
    (f.regIndexBytes b1 b2).find? (8 ≤ ·.toNat) = some b1 := by
  cases f
  case n => exact absurd rfl hf
  case r | rr | ri => simp [Format.regIndexBytes, h]

/-- Where no byte of the format is above 7, the decoder accepts. -/
theorem decode_accepts {o : Opcode} {b1 b2 : Byte}
    (h : (o.format.regIndexBytes b1 b2).find? (8 ≤ ·.toNat) = none) : ∃ i, decode (opcodeByte o) b1 b2 = .ok i :=
  ⟨_, decode_opcodeByte_of_wellFormed ((badOperand_eq_none _).1 ((badOperand_withOperands o b1 b2).trans h))⟩

/-- Where `b` is the first byte of the format above 7, the decoder rejects it by name. -/
theorem decode_rejects {o : Opcode} {b1 b2 b : Byte}
    (h : (o.format.regIndexBytes b1 b2).find? (8 ≤ ·.toNat) = some b) :
    decode (opcodeByte o) b1 b2 = .error (.invalidRegisterIndex b) :=
  decode_opcodeByte_of_bad ((badOperand_withOperands o b1 b2).trans h)

/-- Settles O3: the check runs over the bytes of the format, `B1` before `B2`. -/
theorem decodeRejectsByName : Obligations.DecodeRejectsByName := by
  intro b0 b1 b2
  refine ⟨fun h => decode_of_ofByte_eq_none (ofByte_eq_none.2 h) b1 b2, ?_⟩
  rintro o rfl
  cases hf : o.format with
  | n => exact decode_accepts (by rw [hf]; rfl)
  | r | ri =>
    dsimp only
    split
    · next h1 => exact decode_rejects (find_regIndexBytes_of_b1 (by simp [hf]) h1 b2)
    · next h1 => exact decode_accepts (by simpa [hf, Format.regIndexBytes] using h1)
  | rr =>
    dsimp only
    split
    · next h1 => exact decode_rejects (find_regIndexBytes_of_b1 (by simp [hf]) h1 b2)
    · next h1 =>
      split
      · next h2 => exact decode_rejects (by simp [hf, Format.regIndexBytes, h1, h2])
      · next h2 => exact decode_accepts (by simpa [hf, Format.regIndexBytes] using And.intro h1 h2)

end Sys2Proof
end

section
/-! PROOFS. The step (40_dispatch_basic.md R110 to R115): `step_cases` read backwards, one equation per way a step can
go. -/

namespace Sys2Proof.Machine

/-- The three bytes at the pc are in range exactly up to 253 (R111). -/
theorem fetch_in_range_iff {pc : Nat} : pc + 2 < Config.memSize ↔ pc ≤ 253 := by
  simp only [Config.memSize]; omega

theorem fetch_out_of_range_iff {pc : Nat} : Config.memSize ≤ pc + 2 ↔ 253 < pc := by
  rw [← not_lt, fetch_in_range_iff, not_le]

/-! ### One equation per way a step can go -/

theorem step_of_halted {s : State} (hr : s.run = .halted) : step s = .fault .noStepHalted := by
  simp only [step, hr]

theorem step_of_faulted {s : State} {f : FatalFault} (hr : s.run = .faulted f) : step s = .fault .noStepFaulted := by
  simp only [step, hr]

/-- Above 253 the fetch faults. -/
theorem step_of_fetch_fault {s : State} (hr : s.run = .running) (hpc : Config.memSize ≤ s.pc + 2) :
    step s = .next (s.raise (.outOfRangeAddress (max s.pc Config.memSize : Nat) s.pc)) := by
  simp only [step, hr, fetch_of_ge s hpc]

/-- Up to 253 the step is the decoder's on the three bytes at the pc. -/
theorem step_of_decode_error {s : State} {e : DecodeError} (hr : s.run = .running) (hpc : s.pc + 2 < Config.memSize)
    (hd : decode (s.mem.read s.pc) (s.mem.read (s.pc + 1)) (s.mem.read (s.pc + 2)) = .error e) :
    step s = .next (s.raiseDecodeError e) := by
  simp only [step, hr, fetch_of_lt s hpc, hd]

theorem step_of_decode_ok {s : State} {i : Instr} (hr : s.run = .running) (hpc : s.pc + 2 < Config.memSize)
    (hd : decode (s.mem.read s.pc) (s.mem.read (s.pc + 1)) (s.mem.read (s.pc + 2)) = .ok i) :
    step s = exec i s := by
  simp only [step, hr, fetch_of_lt s hpc, hd]

/-- Settles O6: nothing stands around the instruction's meaning. -/
theorem stepRunsDecodedInstruction : Obligations.StepRunsDecodedInstruction :=
  fun _ _ hr hpc hd => step_of_decode_ok hr (fetch_in_range_iff.2 hpc) hd

/-- Settles O10: the first of the three addresses that is above 255 is the larger of the pc and 256. -/
theorem fetchAboveTopFaults : Obligations.FetchAboveTopFaults :=
  fun _ hr hpc => step_of_fetch_fault hr (fetch_out_of_range_iff.2 hpc)

/-! ### Encoded instructions -/

/-- The three bytes at the pc begin with an encoding where memory holds it from the pc on. -/
theorem encode_prefix_fetched {s : State} {i : Instr}
    (h : ∀ k, (hk : k < (encode i).length) → s.mem.read (s.pc + k) = (encode i)[k]) :
    encode i <+: [s.mem.read s.pc, s.mem.read (s.pc + 1), s.mem.read (s.pc + 2)] := by
  refine List.prefix_iff_getElem.2 ⟨encode_length_le i, fun k hk => (h k hk).symm.trans ?_⟩
  match k, hk.trans_le (encode_length_le i) with
  | 0, _ => rfl
  | 1, _ => rfl
  | 2, _ => rfl

/-- Settles O7: the fetched bytes begin with the encoding, so they decode to the instruction. -/
theorem stepRunsEncodedInstruction : Obligations.StepRunsEncodedInstruction :=
  fun _ _ hr hpc hwf h =>
    step_of_decode_ok hr (fetch_in_range_iff.2 hpc) (decode_of_encode_prefix hwf (encode_prefix_fetched h))

/-! ### Where a step exists -/

/-- Settles O9: every meaning ends in `finish`. -/
theorem everyInstructionAnswersNext : Obligations.EveryInstructionAnswersNext := exec_answers_next

/-- A running machine steps: into a fault of the fetch or of the decoder, or by an instruction, which always answers a
next state. -/
theorem step_of_running {s : State} (hr : s.run = .running) : ∃ t, step s = .next t := by
  rcases Nat.lt_or_ge (s.pc + 2) Config.memSize with hpc | hpc
  · cases hd : decode (s.mem.read s.pc) (s.mem.read (s.pc + 1)) (s.mem.read (s.pc + 2)) with
    | error e => exact ⟨_, step_of_decode_error hr hpc hd⟩
    | ok i =>
      rw [step_of_decode_ok hr hpc hd]
      exact exec_answers_next i s
  · exact ⟨_, step_of_fetch_fault hr hpc⟩

/-- Settles O8: a next state implies Running by `step_cases`; each of the three run states has its equation. -/
theorem stepExistsExactlyWhenRunning : Obligations.StepExistsExactlyWhenRunning := fun _ =>
  ⟨⟨fun ⟨_, h⟩ => (step_cases h).1, step_of_running⟩, step_of_halted, fun _ => step_of_faulted⟩

/-! ### Rejected bytes -/

/-- Settles O11: the decoder rejects by the byte, which is reported before the fault is entered. -/
theorem unknownOpcodeEntry : Obligations.UnknownOpcodeEntry := fun _ hr hpc h =>
  ⟨step_of_decode_error hr (fetch_in_range_iff.2 hpc) (decode_of_ofByte_eq_none (ofByte_eq_none.2 h) _ _), rfl⟩

/-- Where the first byte above 7 among the register-index bytes of the opcode's format is `b`, the step faults with
`b`. -/
theorem step_of_badRegisterByte {s : State} {o : Opcode} {b : Byte} (hr : s.run = .running) (hpc : s.pc ≤ 253)
    (ho : opcodeByte o = s.mem.read s.pc)
    (hb : (o.format.regIndexBytes (s.mem.read (s.pc + 1)) (s.mem.read (s.pc + 2))).find? (8 ≤ ·.toNat) = some b) :
    step s = .next (s.raise (.invalidRegisterIndex b s.pc)) :=
  step_of_decode_error (e := .invalidRegisterIndex b) hr (fetch_in_range_iff.2 hpc) (ho ▸ decode_rejects hb)

/-- Settles O12: the check finds `B1` first, and `B2` only in format RR where `B1` passes. -/
theorem badRegisterByteFaultsInStep : Obligations.BadRegisterByteFaultsInStep := by
  intro s o hr hpc ho
  refine ⟨fun hf h1 => step_of_badRegisterByte hr hpc ho (find_regIndexBytes_of_b1 hf h1 _),
    fun hf h1 h2 => step_of_badRegisterByte hr hpc ho ?_⟩
  simp [hf, Format.regIndexBytes, h2, Nat.not_le.2 h1]

/-- Settles O13: the operand check stands before everything else a meaning does. -/
theorem illFormedInstructionFaults : Obligations.IllFormedInstructionFaults :=
  fun _ s _ h => exec_of_badOperand h s

end Sys2Proof.Machine
end

section
/-! PROOFS. How an instruction ends: it halts, enters a fault, or completes; and the frames of all 15 instructions that
follow (10_state.md sections 1 to 5). -/

namespace Sys2Proof.Machine

/-- A register write leaves the other registers. -/
theorem setReg_reg_of_ne (s : State) {i k : RegIdx} (v : Byte) (h : k ≠ i) : (s.setReg i v).reg k = s.reg k := by
  rw [setReg_reg, if_neg h]

/-! ### The three ways an instruction ends -/

/-- The faults an instruction's meaning can enter in a state, the operand check's among them (R185 to R190). -/
inductive ExecFault (s : State) : FatalFault → Prop
  | divisionByZero : ExecFault s (.divisionByZero s.pc)
  | spOutOfRange {v : Int} (h : v = -1 ∨ v = 256) : ExecFault s (.outOfRangeAddress v s.pc)
  | invalidRegisterIndex {b : Byte} (h : isRegIndex b = false) : ExecFault s (.invalidRegisterIndex b s.pc)

/-- What an instruction that completes leaves as it was, and where it can leave the pc. -/
structure Completes (i : Instr) (s t : State) : Prop where
  run : t.run = s.run
  pc : t.pc = s.pc + 2 ∨ t.pc = s.pc + 3 ∨ ∃ v : Byte, t.pc = v.toNat
  reg : ∀ k, ¬ i.mayWrite k → t.reg k = s.reg k
  out : i.opcode ≠ .prn → i.opcode ≠ .push → i.opcode ≠ .pop → t.out = s.out

/-- A branch completes, taken or not. -/
theorem completes_branch {i : Instr} (s : State) (v : Byte) (taken : Bool) :
    Completes i s (if taken then s.jump v else s.advance 2) := by
  cases taken
  · exact ⟨rfl, .inl rfl, fun _ _ => rfl, fun _ _ _ => rfl⟩
  · exact ⟨rfl, .inr (.inr ⟨v, rfl⟩), fun _ _ => rfl, fun _ _ _ => rfl⟩

/-- An instruction that writes only the register `j` completes. -/
theorem completes_setReg {i : Instr} (s : State) {j : RegIdx} (hj : i.mayWrite j) (v : Byte) :
    Completes i s ((s.setReg j v).advance 3) := by
  refine ⟨rfl, .inr (.inl rfl), fun k hk => ?_, fun _ _ _ => rfl⟩
  exact setReg_reg_of_ne s v fun e : k = j => hk (e ▸ hj)

/-- An instruction halts by HLT's rule, enters a fault with nothing else changed, or completes. -/
theorem exec_outcome_cases {i : Instr} {s t : State} (h : exec i s = .next t) :
    (i = .hlt ∧ t = (s.emit (.report .haltNotice)).halt) ∨ (∃ f, ExecFault s f ∧ t = s.raise f) ∨
      Completes i s t := by
  obtain ⟨b, -, hb, rfl⟩ | ⟨-, he⟩ := exec_cases h
  · exact .inr (.inl ⟨_, .invalidRegisterIndex hb, rfl⟩)
  clear h
  cases i
  case hlt => exact .inl ⟨rfl, he⟩
  case ldi =>
    obtain ⟨k, rfl, rfl⟩ := he
    exact .inr (.inr (completes_setReg s (by exact rfl) _))
  case add | sub | mul =>
    obtain ⟨j, k, rfl, rfl, rfl⟩ := he
    exact .inr (.inr (completes_setReg s (by exact rfl) _))
  case div =>
    obtain ⟨j, k, rfl, rfl, ⟨-, rfl⟩ | ⟨-, rfl⟩⟩ := he
    · exact .inr (.inl ⟨_, .divisionByZero, rfl⟩)
    · exact .inr (.inr (completes_setReg s (by exact rfl) _))
  case cmp =>
    obtain ⟨j, k, -, -, rfl⟩ := he
    exact .inr (.inr ⟨rfl, .inr (.inl rfl), fun _ _ => rfl, fun _ _ _ => rfl⟩)
  case prn =>
    obtain ⟨k, -, rfl⟩ := he
    exact .inr (.inr ⟨rfl, .inl rfl, fun _ _ => rfl, fun hprn _ _ => absurd rfl hprn⟩)
  case jmp =>
    obtain ⟨k, -, rfl⟩ := he
    exact .inr (.inr (completes_branch s _ true))
  case jeq | jne =>
    obtain ⟨k, -, rfl⟩ := he
    exact .inr (.inr (completes_branch s _ _))
  case push =>
    obtain ⟨k, -, ⟨-, rfl⟩ | ⟨-, _, rfl, rfl⟩⟩ := he
    · exact .inr (.inr ⟨rfl, .inl rfl, fun _ _ => rfl, fun _ hpush _ => absurd rfl hpush⟩)
    · refine .inr (.inr ⟨rfl, .inl rfl, fun j hj => ?_, fun _ hpush _ => absurd rfl hpush⟩)
      exact setReg_reg_of_ne s _ hj
  case pop =>
    obtain ⟨k, rfl, ⟨-, rfl⟩ | ⟨-, _, rfl, ⟨-, rfl⟩ | ⟨-, rfl⟩⟩⟩ := he
    · exact .inr (.inr ⟨rfl, .inl rfl, fun _ _ => rfl, fun _ _ hpop => absurd rfl hpop⟩)
    · exact .inr (.inl ⟨_, .spOutOfRange (.inr rfl), rfl⟩)
    · refine .inr (.inr ⟨rfl, .inl rfl, fun j hj => ?_, fun _ _ hpop => absurd rfl hpop⟩)
      obtain ⟨hjk, hjsp⟩ := not_or.1 hj
      rw [advance_reg, setReg_reg_of_ne _ _ hjsp, setReg_reg_of_ne _ _ fun e : j = k => hjk (e ▸ rfl)]
  case call =>
    obtain ⟨k, -, ⟨-, rfl⟩ | ⟨-, _, -, rfl⟩⟩ := he
    · exact .inr (.inl ⟨_, .spOutOfRange (.inl rfl), rfl⟩)
    · refine .inr (.inr ⟨rfl, .inr (.inr ⟨_, rfl⟩), fun j hj => ?_, fun _ _ _ => rfl⟩)
      exact setReg_reg_of_ne s _ hj
  case ret =>
    obtain ⟨-, rfl⟩ | ⟨-, rfl⟩ := he
    · exact .inr (.inl ⟨_, .spOutOfRange (.inr rfl), rfl⟩)
    · refine .inr (.inr ⟨rfl, .inr (.inr ⟨_, rfl⟩), fun j hj => ?_, fun _ _ _ => rfl⟩)
      exact setReg_reg_of_ne s _ hj

/-! ### The frames -/

/-- Settles O26: halting and a fault leave every register, and completing the ones the instruction may not write. -/
theorem registerFrame : Obligations.RegisterFrame := by
  intro i s t k h hk
  obtain ⟨-, rfl⟩ | ⟨f, -, rfl⟩ | hc := exec_outcome_cases h
  · rfl
  · rfl
  · exact hc.reg k hk

/-- Settles O27: PUSH and CALL write memory at their store address alone. -/
theorem memoryFrame : Obligations.MemoryFrame := by
  intro i s t a h ha
  obtain hm | ⟨r, v, rfl, hsp, hm⟩ | ⟨r, v, rfl, hm⟩ := exec_mem_cases h
  · rw [hm]
  · have h0 : s.sp.toNat ≠ 0 := fun e => hsp (BitVec.eq_of_toNat_eq e)
    have hne : s.pushAddress ≠ a := fun e => ha (congrArg some e)
    rw [State.pushAddress] at hne
    rw [hm, read_write_of_ne s.mem v (by omega)]
  · have hne : s.callAddress ≠ a := fun e => ha (congrArg some e)
    rw [State.callAddress] at hne
    rw [hm, read_write_of_ne s.mem v (by omega)]

/-- Settles O28: halting is HLT's alone, a fault changes the run state only, and an instruction that completes leaves
it. -/
theorem statusFrame : Obligations.StatusFrame := by
  intro i s t h
  refine ⟨exec_fl_of_ne_cmp h, ?_⟩
  obtain ⟨rfl, -⟩ | ⟨f, -, rfl⟩ | hc := exec_outcome_cases h
  · exact ⟨fun hhlt => absurd rfl hhlt, fun hhlt => absurd rfl hhlt⟩
  · exact ⟨fun _ => .inr ⟨f, rfl⟩, fun _ _ _ _ => rfl⟩
  · exact ⟨fun _ => .inl hc.run, fun _ => hc.out⟩

end Sys2Proof.Machine
end

section
/-! PROOFS. Faults and halting (10_state.md R29, 60_exceptions.md sections 1, 2 and 5): a fault is precise, an
instruction faults exactly where its rule says, and only HLT halts. -/

namespace Sys2Proof.Machine

/-! ### A fault is precise -/

/-- A step from a running machine that ends in a fault entered it by the fetch, the decoder, or an instruction. -/
theorem step_faulted_cases {s t : State} {f : FatalFault} (h : step s = .next t) (hf : t.run = .faulted f) :
    (f = .outOfRangeAddress (max s.pc Config.memSize : Nat) s.pc ∧ t = s.raise f) ∨
      (s.pc + 2 < Config.memSize ∧
        ((f = .unknownOpcode (s.mem.read s.pc) s.pc ∧ Opcode.ofByte? (s.mem.read s.pc) = none ∧
            t = (s.emit (.report (.unknownOpcode (s.mem.read s.pc) s.pc))).raise f) ∨
          (ExecFault s f ∧ t = s.raise f))) := by
  obtain ⟨hr, ⟨-, rfl⟩ | ⟨hpc, ⟨e, he, rfl⟩ | ⟨i, -, hi⟩⟩⟩ := step_cases h
  · obtain rfl := RunState.faulted.inj hf
    exact .inl ⟨rfl, rfl⟩
  · obtain ⟨hnone, rfl⟩ | ⟨b, hb, rfl⟩ := decode_eq_error he
    · obtain rfl := RunState.faulted.inj hf
      exact .inr ⟨hpc, .inl ⟨rfl, hnone, rfl⟩⟩
    · obtain rfl := RunState.faulted.inj hf
      exact .inr ⟨hpc, .inr ⟨.invalidRegisterIndex hb, rfl⟩⟩
  · obtain ⟨-, rfl⟩ | ⟨g, hg, rfl⟩ | hc := exec_outcome_cases hi
    · cases hf
    · obtain rfl := RunState.faulted.inj hf
      exact .inr ⟨hpc, .inr ⟨hg, rfl⟩⟩
    · rw [hc.run, hr] at hf; cases hf

/-- Settles O14: every way into a fault enters it from the start of the step, the decoder's after its report. -/
theorem fatalFaultIsPrecise : Obligations.FatalFaultIsPrecise := by
  intro s t f h hf
  obtain ⟨rfl, rfl⟩ | ⟨-, ⟨rfl, -, rfl⟩ | ⟨hx, rfl⟩⟩ := step_faulted_cases h hf
  · exact ⟨rfl, rfl, rfl, rfl, rfl⟩
  · exact ⟨rfl, rfl, rfl, rfl, rfl⟩
  · cases hx <;> exact ⟨rfl, rfl, rfl, rfl, rfl⟩

/-! ### Where an instruction faults -/

theorem not_safe_raise (s : State) (f : FatalFault) : ¬ (s.raise f).Safe := fun h => h f rfl

theorem safe_of_run_eq {s t : State} (h : t.run = s.run) (hs : s.Safe) : t.Safe := fun f hf => hs f (h.symm.trans hf)

theorem safe_halt (s : State) : s.halt.Safe := nofun

/-- POP's pointer would step to 256 where it stands at 0xFF, or where POP R7 has loaded 0xFF. -/
theorem popped_sp_top_iff {s : State} {k : RegIdx} (h : s.sp ≠ Config.spReset) :
    (s.setReg k (s.mem.read s.sp.toNat)).sp.toNat = 255 ↔
      (k ≠ 7 ∧ s.sp = 0xFF#8) ∨ (k = 7 ∧ s.sp ≠ 0xF4#8 ∧ s.mem.read s.sp.toNat = 0xFF#8) := by
  have htop (v : Byte) : v.toNat = 255 ↔ v = 0xFF#8 := (BitVec.toNat_inj (y := 0xFF#8))
  rw [htop, setReg_sp_eq]
  by_cases hk : k = 7
  · simp [hk, h]
  · simp [hk]

/-- Settles O15, instruction by instruction from its effect: the run state is the start's where its rule names no
fault. -/
theorem execFaultsExactlyWhereListed : Obligations.ExecFaultsExactlyWhereListed := by
  intro i s t hwf hs h
  have never {u : State} (hu : u.run = s.run) : ¬ u.Safe ↔ False :=
    iff_of_false (not_not_intro (safe_of_run_eq hu hs)) id
  obtain ⟨b, hb, -⟩ | he := exec_badOperand_or_effect h
  · rw [(badOperand_eq_none i).2 hwf] at hb; cases hb
  clear h hwf
  cases i
  case hlt =>
    obtain rfl := he
    exact iff_of_false (not_not_intro (safe_halt _)) id
  case ldi | prn | jmp =>
    obtain ⟨_, -, rfl⟩ := he
    exact never rfl
  case jeq | jne =>
    obtain ⟨_, -, rfl⟩ := he
    rw [branch_eq_withPc]
    exact never rfl
  case add | sub | mul | cmp =>
    obtain ⟨_, _, -, -, rfl⟩ := he
    exact never rfl
  case push =>
    obtain ⟨_, -, ⟨-, rfl⟩ | ⟨-, _, rfl, rfl⟩⟩ := he <;> exact never rfl
  case div =>
    obtain ⟨_, k, -, rfl, ⟨hk, rfl⟩ | ⟨hk, rfl⟩⟩ := he
    · exact iff_of_true (not_safe_raise s _) ⟨k, rfl, hk⟩
    · exact (never rfl).trans (iff_of_false id fun ⟨_, hb, h0⟩ => hk (regByte_inj.1 hb ▸ h0))
  case pop =>
    obtain ⟨k, rfl, hpop⟩ := he
    simp only [ne_eq, regByte_inj]
    obtain ⟨hsp, rfl⟩ | ⟨hsp, _, rfl, ⟨htop, rfl⟩ | ⟨htop, rfl⟩⟩ := hpop
    · exact (never rfl).trans (iff_of_false id (by simp [hsp, Config.spReset]))
    · exact iff_of_true (not_safe_raise s _) ((popped_sp_top_iff hsp).1 htop)
    · exact (never rfl).trans (iff_of_false id (mt (popped_sp_top_iff hsp).2 htop))
  case call =>
    obtain ⟨_, -, ⟨hsp, rfl⟩ | ⟨hsp, _, -, rfl⟩⟩ := he
    · exact iff_of_true (not_safe_raise s _) hsp
    · exact (never rfl).trans (iff_of_false id hsp)
  case ret =>
    obtain ⟨hsp, rfl⟩ | ⟨hsp, rfl⟩ := he
    · exact iff_of_true (not_safe_raise s _) (BitVec.eq_of_toNat_eq hsp)
    · exact (never rfl).trans (iff_of_false id fun e : s.sp = 0xFF#8 => hsp (congrArg BitVec.toNat e))

/-! ### Halting -/

/-- A step that ends Halted ran the HLT at the pc, by its rule (R116). -/
theorem step_halted {s t : State} (h : step s = .next t) (ht : t.run = .halted) :
    s.pc + 2 < Config.memSize ∧ s.mem.read s.pc = opcodeByte .hlt ∧
      t = (s.emit (.report .haltNotice)).halt := by
  obtain ⟨hr, ⟨-, rfl⟩ | ⟨hpc, ⟨e, -, rfl⟩ | ⟨i, hd, hi⟩⟩⟩ := step_cases h
  · cases ht
  · cases e <;> cases ht
  · obtain ⟨rfl, rfl⟩ | ⟨f, -, rfl⟩ | hc := exec_outcome_cases hi
    · have hpre := (decodedBytesAreTheEncoding _ _ _ _ hd).2
      exact ⟨hpc, ((List.cons_prefix_cons.1 hpre).1).symm, rfl⟩
    · cases ht
    · rw [hc.run, hr] at ht; cases ht

/-- Settles O16, from the HLT that the step ran. -/
theorem onlyHltHalts : Obligations.OnlyHltHalts := by
  intro s t h ht
  obtain ⟨hpc, hread, rfl⟩ := step_halted h ht
  exact ⟨fetch_in_range_iff.1 hpc, hread, rfl⟩

end Sys2Proof.Machine
end

section
/-! PROOFS. The output sequence (10_state.md R30): a step appends at most one event and reads none. -/

namespace Sys2Proof.Machine

/-- From `s` to `t` at most one event is appended, and `R` relates them whatever history the output has. -/
def AppendsUnread (R : State → State → Prop) (s t : State) : Prop :=
  (t.out = s.out ∧ ∀ o, R { s with out := o } { t with out := o }) ∨
    ∃ e, t.out = s.out ++ [e] ∧ ∀ o, R { s with out := o } { t with out := o ++ [e] }

/-- What passes from one relation to another, at every history, passes under `AppendsUnread`. -/
theorem AppendsUnread.imp {R Q : State → State → Prop} {s t : State} (h : AppendsUnread R s t)
    (hRQ : ∀ o u, R { s with out := o } u → Q { s with out := o } u) : AppendsUnread Q s t := by
  obtain ⟨ht, hR⟩ | ⟨e, ht, hR⟩ := h
  · exact .inl ⟨ht, fun o => hRQ o _ (hR o)⟩
  · exact .inr ⟨e, ht, fun o => hRQ o _ (hR o)⟩

/-- HLT, PRN and the reports of PUSH and POP append one event, every other effect none; no effect reads the output. -/
theorem Effect.appendsUnread {i : Instr} {s t : State} (h : Effect s t i) :
    AppendsUnread (fun s t => Effect s t i) s t := by
  cases i
  case hlt =>
    obtain rfl := h
    exact .inr ⟨_, rfl, fun _ => rfl⟩
  case prn =>
    obtain ⟨k, rfl, rfl⟩ := h
    exact .inr ⟨_, rfl, fun _ => ⟨k, rfl, rfl⟩⟩
  case push =>
    obtain ⟨k, rfl, ⟨hs, rfl⟩ | ⟨hs, _, rfl, rfl⟩⟩ := h
    · exact .inr ⟨_, rfl, fun _ => ⟨k, rfl, .inl ⟨hs, rfl⟩⟩⟩
    · exact .inl ⟨rfl, fun _ => ⟨k, rfl, .inr ⟨hs, _, rfl, rfl⟩⟩⟩
  case pop =>
    obtain ⟨k, rfl, ⟨hs, rfl⟩ | ⟨hs, _, rfl, ⟨hn, rfl⟩ | ⟨hn, rfl⟩⟩⟩ := h
    · exact .inr ⟨_, rfl, fun _ => ⟨k, rfl, .inl ⟨hs, rfl⟩⟩⟩
    · exact .inl ⟨rfl, fun _ => ⟨k, rfl, .inr ⟨hs, _, rfl, .inl ⟨hn, rfl⟩⟩⟩⟩
    · exact .inl ⟨rfl, fun _ => ⟨k, rfl, .inr ⟨hs, _, rfl, .inr ⟨hn, rfl⟩⟩⟩⟩
  case ldi | jmp =>
    obtain ⟨k, rfl, rfl⟩ := h
    exact .inl ⟨rfl, fun _ => ⟨k, rfl, rfl⟩⟩
  case jeq | jne =>
    obtain ⟨k, rfl, rfl⟩ := h
    rw [branch_eq_withPc]
    refine .inl ⟨rfl, fun _ => ⟨k, rfl, ?_⟩⟩
    rw [branch_eq_withPc]
    rfl
  case add | sub | mul | cmp =>
    obtain ⟨j, k, rfl, rfl, rfl⟩ := h
    exact .inl ⟨rfl, fun _ => ⟨j, k, rfl, rfl, rfl⟩⟩
  case div =>
    obtain ⟨j, k, rfl, rfl, ⟨hk, rfl⟩ | ⟨hk, rfl⟩⟩ := h
    · exact .inl ⟨rfl, fun _ => ⟨j, k, rfl, rfl, .inl ⟨hk, rfl⟩⟩⟩
    · exact .inl ⟨rfl, fun _ => ⟨j, k, rfl, rfl, .inr ⟨hk, rfl⟩⟩⟩
  case call =>
    obtain ⟨k, rfl, ⟨hs, rfl⟩ | ⟨hs, _, rfl, rfl⟩⟩ := h
    · exact .inl ⟨rfl, fun _ => ⟨k, rfl, .inl ⟨hs, rfl⟩⟩⟩
    · exact .inl ⟨rfl, fun _ => ⟨k, rfl, .inr ⟨hs, _, rfl, rfl⟩⟩⟩
  case ret =>
    obtain ⟨hs, rfl⟩ | ⟨hs, rfl⟩ := h
    · exact .inl ⟨rfl, fun _ => .inl ⟨hs, rfl⟩⟩
    · exact .inl ⟨rfl, fun _ => .inr ⟨hs, rfl⟩⟩

theorem exec_appendsUnread {i : Instr} {s t : State} (h : exec i s = .next t) :
    AppendsUnread (fun s t => exec i s = .next t) s t := by
  obtain ⟨b, hb, rfl⟩ | he := exec_badOperand_or_effect h
  · exact .inl ⟨rfl, fun _ => exec_of_badOperand hb _⟩
  · exact he.appendsUnread.imp fun _ _ => exec_of_effect

/-- A step fetches and decodes the same bytes whatever the history; of the faults of the fetch and of the decoder only
an unknown opcode appends an event, its report. -/
theorem step_appendsUnread {s t : State} (h : step s = .next t) : AppendsUnread (fun s t => step s = .next t) s t := by
  obtain ⟨hr, ⟨hpc, rfl⟩ | ⟨hpc, ⟨e, hd, rfl⟩ | ⟨i, hd, hi⟩⟩⟩ := step_cases h
  · exact .inl ⟨rfl, fun o => step_of_fetch_fault (s := { s with out := o }) hr hpc⟩
  · have hstep (o : List Event) := step_of_decode_error (s := { s with out := o }) hr hpc hd
    cases e with
    | unknownOpcode op => exact .inr ⟨_, rfl, hstep⟩
    | invalidRegisterIndex b => exact .inl ⟨rfl, hstep⟩
  · exact (exec_appendsUnread hi).imp fun o _ hu => (step_of_decode_ok (s := { s with out := o }) hr hpc hd).trans hu

/-- Settles O17: appending none or one is the first half of `AppendsUnread`. -/
theorem outputIsAppendOnly : Obligations.OutputIsAppendOnly := by
  intro s t h
  obtain ⟨ht, -⟩ | ⟨e, ht, -⟩ := step_appendsUnread h
  · exact .inl ht
  · exact .inr ⟨e, ht⟩

/-- Settles O18: the events appended are none or one, the same under every history. -/
theorem outputIsNeverRead : Obligations.OutputIsNeverRead := by
  intro s t o h
  obtain ⟨ht, hstep⟩ | ⟨e, ht, hstep⟩ := step_appendsUnread h
  · exact ⟨[], by simp [ht], by simpa using hstep o⟩
  · exact ⟨[e], ht, hstep o⟩

end Sys2Proof.Machine
end

section
/-! PROOFS. The invariant (10_state.md sections 2, 4, 6 and 8): reset and the loader establish it, every step keeps
it. -/

namespace Sys2Proof.Machine

/-! ### Every step keeps it -/

/-- Every instruction keeps memory in canonical form: the two stores are at addresses below 256. -/
theorem exec_mem_wf {i : Instr} {s t : State} (h : exec i s = .next t) (hwf : s.mem.wf) : t.mem.wf := by
  have hsp : s.sp.toNat < Config.memSize := s.sp.isLt
  obtain hm | ⟨_, v, -, -, hm⟩ | ⟨_, v, -, hm⟩ := exec_mem_cases h
  · rwa [hm]
  · rw [hm]; exact wf_write hwf (by omega) v
  · rw [hm]; exact wf_write hwf hsp v

/-- An instruction fetched at 253 or below, and completed, leaves the pc at 256 or below. -/
theorem Completes.pc_le {i : Instr} {s t : State} (h : Completes i s t) (hpc : s.pc + 2 < Config.memSize) :
    t.pc ≤ Config.memSize := by
  obtain e | e | ⟨v, e⟩ := h.pc
  · omega
  · omega
  · rw [e]; exact v.isLt.le

/-- The record of an instruction's fault is true of the state the fault leaves. -/
theorem ExecFault.recordedIn {s : State} {f : FatalFault} (h : ExecFault s f) (hpc : s.pc + 2 < Config.memSize) :
    f.RecordedIn (s.raise f) := by
  cases h with
  | divisionByZero => exact ⟨rfl, hpc⟩
  | spOutOfRange hv => exact ⟨rfl, hv⟩
  | invalidRegisterIndex hb => exact ⟨rfl, hpc, hb⟩

/-- A step that leaves the machine running ran an instruction that completed. -/
theorem step_running {s t : State} (h : step s = .next t) (ht : t.run = .running) :
    s.pc + 2 < Config.memSize ∧ ∃ i, exec i s = .next t ∧ Completes i s t := by
  obtain ⟨-, ⟨-, rfl⟩ | ⟨hpc, ⟨e, -, rfl⟩ | ⟨i, -, hi⟩⟩⟩ := step_cases h
  · cases ht
  · cases e <;> cases ht
  · obtain ⟨-, rfl⟩ | ⟨f, -, rfl⟩ | hc := exec_outcome_cases hi
    · cases ht
    · cases ht
    · exact ⟨hpc, i, hi, hc⟩

/-- Settles O19, by how the step ends: running on, Halted, or in a fault. -/
theorem stepKeepsInvariant : Obligations.StepKeepsInvariant := by
  rintro s t ⟨hwf, hpc256, -⟩ h
  cases ht : t.run with
  | running =>
    obtain ⟨hpc, i, hi, hc⟩ := step_running h ht
    exact ⟨exec_mem_wf hi hwf, hc.pc_le hpc, by rw [ht]; trivial⟩
  | halted =>
    obtain ⟨hpc, hread, rfl⟩ := step_halted h ht
    exact ⟨hwf, hpc256, hpc, hread, List.getLast?_concat⟩
  | faulted f =>
    obtain ⟨rfl, rfl⟩ | ⟨hpc, ⟨rfl, hnone, rfl⟩ | ⟨hf, rfl⟩⟩ := step_faulted_cases h ht
    · have hmax : max s.pc Config.memSize = Config.memSize := Nat.max_eq_right hpc256
      exact ⟨hwf, hpc256, rfl, .inr (congrArg Nat.cast hmax)⟩
    · exact ⟨hwf, hpc256, rfl, hpc, rfl, hnone, List.getLast?_concat⟩
    · exact ⟨hwf, hpc256, hf.recordedIn hpc⟩

/-! ### Reset and the loader -/

/-- Settles O20: no cell is listed, the pc is 0, and a running machine has no more to meet. -/
theorem resetMeetsInvariant : Obligations.ResetMeetsInvariant := ⟨reset_mem_wf, Nat.zero_le _, trivial⟩

/-- Settles O21: `x[7]` is set apart from the other registers, and no cell of memory is listed. -/
theorem resetState : Obligations.ResetState := ⟨rfl, by decide, rfl, rfl, rfl, rfl, read_nil⟩

/-- An image that fits is loaded into the reset state. -/
theorem boot_of_le {image : List Byte} (h : image.length ≤ Config.memSize) :
    boot image = .next { State.reset with mem := State.reset.mem.writeList Config.loadBase image } :=
  if_pos h

/-- The booted state meets the invariant: the loader writes inside the address space. -/
theorem boot_inv {image : List Byte} {s : State} (hle : image.length ≤ Config.memSize) (h : boot image = .next s) :
    s.Inv := by
  rw [boot_eq_next h]
  exact ⟨wf_writeList reset_mem_wf (by simpa using hle), Nat.zero_le _, trivial⟩

/-- A cell the loader did not write reads as at reset. -/
theorem read_boot_of_le {image : List Byte} {s : State} (h : boot image = .next s) (a : Nat)
    (ha : image.length ≤ a) : s.mem.read a = 0#8 := by
  rw [boot_eq_next h, read_writeList, if_neg (by simpa using ha)]
  rfl

/-- Settles O22, from what the loader writes and what it leaves. -/
theorem loaderContract : Obligations.LoaderContract := by
  refine fun image => ⟨fun hle => ?_, fun hgt => if_neg (Nat.not_le.2 hgt)⟩
  have h := boot_of_le hle
  exact ⟨_, h, boot_inv hle h, boot_restore_mem h, read_boot h, read_boot_of_le h⟩

end Sys2Proof.Machine
end

section
/-! PROOFS. HLT, LDI, PRN, the ALU and the branches (40_dispatch_basic.md, 41_alu.md, 43_branch.md): the next state of
each instruction on any registers. -/

namespace Sys2Proof.Machine

/-! ### HLT, LDI, PRN -/

/-- Settles O31, by HLT's one effect. -/
theorem hltHalts : Obligations.HltHalts := fun _ => exec_of_effect (i := .hlt) rfl

/-- LDI stores the immediate (R117). -/
theorem exec_ldi_regByte (s : State) (r : RegIdx) (imm : Byte) :
    exec (.ldi (regByte r) imm) s = .next ((s.setReg r imm).advance 3) :=
  exec_of_effect (i := .ldi (regByte r) imm) ⟨r, rfl, rfl⟩

/-- Settles O32: LDI is one register write. -/
theorem ldiLoadsImmediate : Obligations.LdiLoadsImmediate := fun s r imm =>
  ⟨_, exec_ldi_regByte s r imm, setReg_reg_self s r imm, fun _ hk => setReg_reg_of_ne s imm hk, rfl, rfl, rfl, rfl, rfl⟩

/-- Settles O33, by PRN's one effect on a register. -/
theorem prnEmitsValue : Obligations.PrnEmitsValue := fun _ r =>
  exec_of_effect (i := .prn (regByte r)) ⟨r, rfl, rfl⟩

/-! ### The ALU -/

/-- Settles O34: byte addition is the sum modulo 256. -/
theorem addResult : Obligations.AddResult := fun s a b =>
  ⟨s.reg a + s.reg b, BitVec.toNat_add _ _, exec_add_regByte s a b⟩

/-- Settles O35: byte subtraction is the difference modulo 256. -/
theorem subResult : Obligations.SubResult := fun s a b =>
  ⟨s.reg a - s.reg b, toNat_sub_emod _ _, exec_sub_regByte s a b⟩

/-- Settles O36: byte multiplication is the product modulo 256. -/
theorem mulResult : Obligations.MulResult := fun s a b =>
  ⟨s.reg a * s.reg b, BitVec.toNat_mul _ _, exec_mul_regByte s a b⟩

/-- Settles O37: byte division is the quotient rounded down. -/
theorem divResult : Obligations.DivResult := fun s a b h =>
  ⟨s.reg a / s.reg b, BitVec.toNat_udiv, exec_div_regByte s a b h⟩

/-- Settles O38: a zero divisor is the first of DIV's two effects. -/
theorem divByZeroFaults : Obligations.DivByZeroFaults := fun _ a b h =>
  exec_of_effect (i := .div (regByte a) (regByte b)) ⟨a, b, rfl, rfl, .inl ⟨h, rfl⟩⟩

/-- The comparison on the values of the bytes. -/
theorem compareFlags_eq_ite (va vb : Byte) :
    compareFlags va vb =
      if va.toNat = vb.toNat then .equal else if vb.toNat < va.toNat then .greaterThan else .lessThan := by
  simp only [compareFlags, BitVec.toNat_inj]

/-- Settles O39: CMP latches the comparison, here on the values. -/
theorem cmpResult : Obligations.CmpResult := by
  intro s a b
  rw [exec_cmp_regByte, compareFlags_eq_ite]

/-! ### Branches -/

/-- Settles O56, by JMP's one effect on a register. -/
theorem jmpResult : Obligations.JmpResult := fun _ r =>
  exec_of_effect (i := .jmp (regByte r)) ⟨r, rfl, rfl⟩

/-- JEQ changes the pc alone (R171). -/
theorem exec_jeq_regByte (s : State) (r : RegIdx) :
    exec (.jeq (regByte r)) s = .next { s with pc := if s.fl.takesJeq then (s.reg r).toNat else s.pc + 2 } := by
  rw [← branch_eq_withPc]
  exact exec_of_effect (i := .jeq (regByte r)) ⟨r, rfl, rfl⟩

/-- JNE changes the pc alone (R172). -/
theorem exec_jne_regByte (s : State) (r : RegIdx) :
    exec (.jne (regByte r)) s = .next { s with pc := if s.fl.takesJne then (s.reg r).toNat else s.pc + 2 } := by
  rw [← branch_eq_withPc]
  exact exec_of_effect (i := .jne (regByte r)) ⟨r, rfl, rfl⟩

/-- Settles O57: JEQ's condition is that the flags are Equal. -/
theorem jeqResult : Obligations.JeqResult := by
  intro s r
  rw [exec_jeq_regByte]
  simp only [Flags.takesJeq, decide_eq_true_eq]

/-- Settles O58, for each of the four states of the flags. -/
theorem jneResult : Obligations.JneResult := by
  intro s r
  rw [exec_jne_regByte]
  cases s.fl <;> rfl

end Sys2Proof.Machine
end

section
/-! PROOFS. The stack and subroutine instructions (42_stack_subroutine.md): PUSH, POP, CALL and RET where the pointer
stays in range and where it does not, and how they undo each other. -/

namespace Sys2Proof.Machine

/-! ### The pointer stepped within range -/

/-- The byte below is one less, and 0 for 0, where no instruction uses it. -/
theorem narrow_pred_toNat (v : Byte) : (narrow (v.toNat - 1 : Nat)).toNat = v.toNat - 1 :=
  narrow_toNat_of_lt ((Nat.sub_le _ _).trans_lt v.isLt)

/-- The byte above is one more, up to 0xFF. -/
theorem narrow_succ_toNat {v : Byte} (h : v.toNat ≠ 255) : (narrow (v.toNat + 1 : Nat)).toNat = v.toNat + 1 :=
  narrow_toNat_of_lt (Nat.succ_lt_succ (Nat.lt_of_le_of_ne (Nat.le_of_lt_succ v.isLt) h))

theorem toNat_ne_top {v : Byte} (h : v ≠ 0xFF#8) : v.toNat ≠ 255 := fun e => h (BitVec.eq_of_toNat_eq e)

/-! ### PUSH -/

/-- PUSH with the pointer above 0 steps it down and stores the register, read after that, at the new pointer (R151). -/
theorem exec_push_of_sp_ne_zero {s : State} (h : s.sp ≠ 0#8) (r : RegIdx) :
    exec (.push (regByte r)) s =
      .next
        ({ s.setReg Config.spIndex (narrow (s.sp.toNat - 1 : Nat)) with
          mem := s.mem.write (s.sp.toNat - 1)
            ((s.setReg Config.spIndex (narrow (s.sp.toNat - 1 : Nat))).reg r) }.advance 2) :=
  exec_of_effect (i := .push (regByte r)) ⟨r, rfl, .inr ⟨h, _, rfl, rfl⟩⟩

/-- Settles O42: the store is read after the pointer's write, so only PUSH R7 sees the new pointer. -/
theorem pushStoresBelow : Obligations.PushStoresBelow := by
  intro s r h
  refine ⟨_, exec_push_of_sp_ne_zero h r, ?_, ?_, fun a ha => read_write_of_ne s.mem _ ha,
    fun k hk => setReg_reg_of_ne s _ hk, rfl, rfl, rfl, rfl⟩
  · exact (congrArg BitVec.toNat (setReg_sp s _)).trans (narrow_pred_toNat s.sp)
  · refine (read_write_self s.mem _ _).trans ?_
    split
    · next hr => rw [hr]; rfl
    · next hr => exact setReg_reg_of_ne s _ hr

/-! ### POP -/

/-- POP off the sentinel loads the register and steps the pointer as it stands after the load (R152). -/
theorem exec_pop_of_sp_ne_reset {s : State} (h : s.sp ≠ Config.spReset) {r : RegIdx}
    (htop : (s.setReg r (s.mem.read s.sp.toNat)).sp.toNat ≠ 255) :
    ∃ t, exec (.pop (regByte r)) s = .next t ∧
      t.sp.toNat = (s.setReg r (s.mem.read s.sp.toNat)).sp.toNat + 1 ∧
      (∀ k, k ≠ 7 → t.reg k = (s.setReg r (s.mem.read s.sp.toNat)).reg k) ∧ t.mem = s.mem ∧ t.pc = s.pc + 2 ∧
      SameStatus s t := by
  refine ⟨_, exec_of_effect (i := .pop (regByte r)) ⟨r, rfl, .inr ⟨h, _, rfl, .inr ⟨htop, rfl⟩⟩⟩, ?_,
    fun k hk => setReg_reg_of_ne _ _ hk, rfl, rfl, rfl, rfl, rfl⟩
  exact (congrArg BitVec.toNat (setReg_sp _ _)).trans (narrow_succ_toNat htop)

/-- Settles O44: the load leaves the pointer, which is then stepped. -/
theorem popLoadsTop : Obligations.PopLoadsTop := by
  intro s r hr hreset htop
  have hsp : (s.setReg r (s.mem.read s.sp.toNat)).sp = s.sp := setReg_sp_of_ne s r _ hr
  obtain ⟨t, ht, htsp, hregs, hrest⟩ := exec_pop_of_sp_ne_reset hreset (r := r) (by rw [hsp]; exact toNat_ne_top htop)
  rw [hsp] at htsp
  exact ⟨t, ht, (hregs r hr).trans (setReg_reg_self s r _), htsp,
    fun k hk hk7 => (hregs k hk7).trans (setReg_reg_of_ne s _ hk), hrest⟩

/-- Settles O45: the load is of the pointer itself, which is then stepped. -/
theorem popIntoStackPointer : Obligations.PopIntoStackPointer := by
  intro s hreset htop
  have hsp : (s.setReg 7 (s.mem.read s.sp.toNat)).sp = s.mem.read s.sp.toNat := setReg_sp s _
  obtain ⟨t, ht, htsp, hregs, hrest⟩ := exec_pop_of_sp_ne_reset hreset (r := 7) (by rw [hsp]; exact toNat_ne_top htop)
  rw [hsp] at htsp
  exact ⟨t, ht, htsp, fun k hk => (hregs k hk).trans (setReg_reg_of_ne s _ hk), hrest⟩

/-- Settles O47: in both cases the pointer after the load is 0xFF. -/
theorem popPastTopFaults : Obligations.PopPastTopFaults := by
  intro s r h
  have hreset : s.sp ≠ Config.spReset := by
    obtain ⟨-, hsp⟩ | ⟨-, hsp, -⟩ := h
    · rw [hsp]; decide
    · exact hsp
  exact exec_of_effect (i := .pop (regByte r))
    ⟨r, rfl, .inr ⟨hreset, _, rfl, .inl ⟨(popped_sp_top_iff hreset).2 h, rfl⟩⟩⟩

/-! ### CALL -/

/-- CALL with the pointer above 0 stores the return address at it, steps it down, and jumps through the cell at the
operand plus one, read after the store (R153). -/
theorem exec_call_of_sp_ne_zero {s : State} (h : s.sp ≠ 0#8) (r : RegIdx) :
    exec (.call (regByte r)) s =
      .next
        ({ s.setReg Config.spIndex (narrow (s.sp.toNat - 1 : Nat)) with
          mem := s.mem.write s.sp.toNat s.returnAddress }.jump
            ((s.mem.write s.sp.toNat s.returnAddress).read (r.val + 1))) :=
  exec_of_effect (i := .call (regByte r)) ⟨r, rfl, .inr ⟨h, _, rfl, rfl⟩⟩

/-- The return address fits a byte wherever a CALL can be fetched. -/
theorem returnAddress_toNat {s : State} (h : s.pc ≤ 253) : s.returnAddress.toNat = s.pc + 2 :=
  narrow_toNat_of_lt (fetch_in_range_iff.2 h)

/-- Settles O48: the store, the stepped pointer and the jump, each read off CALL's effect. -/
theorem callResult : Obligations.CallResult := by
  intro s r h hpc
  refine ⟨_, exec_call_of_sp_ne_zero h r, ?_, fun a ha => read_write_of_ne s.mem _ ha, ?_,
    fun k hk => setReg_reg_of_ne s _ hk, rfl, rfl, rfl, rfl⟩
  · exact (congrArg BitVec.toNat (read_write_self s.mem _ _)).trans (returnAddress_toNat hpc)
  · exact (congrArg BitVec.toNat (setReg_sp s _)).trans (narrow_pred_toNat s.sp)

/-- Settles O49, by CALL's fault at pointer 0. -/
theorem callAtZeroFaults : Obligations.CallAtZeroFaults := fun _ r h => exec_call_of_sp_zero h r

/-- Writes to two registers commute. -/
theorem setReg_comm (s : State) {i k : RegIdx} (v w : Byte) (h : i ≠ k) :
    (s.setReg i v).setReg k w = (s.setReg k w).setReg i v := by
  have hne : (i : Nat) ≠ k := fun e => h (Fin.ext e)
  simp only [State.setReg, Vector.set_comm _ _ hne]

/-- Settles O50: CALL reads and writes the stack pointer alone among the registers, so a write to another commutes with
it. -/
theorem callIgnoresRegisterContent : Obligations.CallIgnoresRegisterContent := by
  intro s r k v hk
  have hsp : (s.setReg k v).sp = s.sp := setReg_sp_of_ne s k v hk
  by_cases h : s.sp = 0#8
  · rw [exec_call_of_sp_zero h, exec_call_of_sp_zero (hsp.trans h)]
    rfl
  · rw [exec_call_of_sp_ne_zero h, exec_call_of_sp_ne_zero (hsp.symm ▸ h), hsp, setReg_comm s v _ hk]
    rfl

/-! ### RET -/

/-- Settles O51: below 0xFF the pointer has a byte above it. -/
theorem retResult : Obligations.RetResult := fun _ h =>
  ⟨_, narrow_succ_toNat (toNat_ne_top h), exec_ret_of_sp_ne_top (toNat_ne_top h)⟩

/-- Settles O52: at 0xFF RET has only its fault. -/
theorem retAtTopFaults : Obligations.RetAtTopFaults := fun _ h =>
  exec_of_effect (i := .ret) (.inl ⟨congrArg BitVec.toNat h, rfl⟩)

/-! ### One instruction after another -/

/-- Settles O53: the CALL left the pointer one below its cell, where the RET finds the return address. -/
theorem retUndoesCall : Obligations.RetUndoesCall := by
  intro s t u r h hpc ht husp hucell
  obtain ⟨t', ht', hcell, -, htsp, -⟩ := callResult s r h hpc
  obtain rfl : t = t' := Host.Outcome.next.inj (ht.symm.trans ht')
  have hs : u.sp.toNat + 1 = s.sp.toNat := by rw [husp]; bv_omega
  obtain ⟨v, hv, hret⟩ := retResult u (by bv_omega)
  refine ⟨_, hret, ?_, ?_⟩
  · rw [hs, hucell, hcell]
  · exact (setReg_sp u v).trans (BitVec.eq_of_toNat_eq (hv.trans hs))

/-- Settles O54: the PUSH left the pointer at its cell, which is not the sentinel. -/
theorem popUndoesPush : Obligations.PopUndoesPush := by
  intro s t u x y hx hy h0 hF5 ht husp hucell
  obtain ⟨t', ht', htsp, hcell, -⟩ := pushStoresBelow s x h0
  obtain rfl : t = t' := Host.Outcome.next.inj (ht.symm.trans ht')
  obtain ⟨w, hw, hreg, hwsp, -⟩ := popLoadsTop u y hy (by rw [husp]; bv_omega) (by rw [husp]; bv_omega)
  refine ⟨w, hw, ?_, ?_⟩
  · rw [hreg, husp, hucell, htsp, hcell, if_neg hx]
  · rw [husp] at hwsp
    bv_omega

/-- Settles O55: CALL stores at the pointer, the cell PUSH left it at. -/
theorem callOverwritesPushedValue : Obligations.CallOverwritesPushedValue := by
  intro s t u x r h0 ht ht0 hpc hu
  obtain ⟨t', ht', htsp, -⟩ := pushStoresBelow s x h0
  obtain rfl : t = t' := Host.Outcome.next.inj (ht.symm.trans ht')
  obtain ⟨u', hu', hcell, -⟩ := callResult t r ht0 hpc
  obtain rfl : u = u' := Host.Outcome.next.inj (hu.symm.trans hu')
  rw [← htsp, hcell]

end Sys2Proof.Machine
end

section
/-! PROOFS. What the host sees (60_exceptions.md section 8): the exit status, the codes, and the debug trace. -/

namespace Sys2Proof.Machine

/-- Settles O23: whatever the open value is, `EXIT_FATAL` is its successor. -/
theorem exitStatuses : Obligations.ExitStatuses := by
  refine ⟨rfl, rfl, fun _ _ => rfl, Config.exitFatal, Nat.succ_ne_zero _, fun f hf => ?_⟩
  cases f with
  | unknownOpcode op addr => exact absurd rfl (hf op addr)
  | unsupportedAluOperation | divisionByZero | outOfRangeAddress | invalidRegisterIndex => rfl

/-- The flag byte is `0b00000LGE` (R28). -/
theorem flags_encoding_bits (f : Flags) :
    f.encoding.toNat < 8 ∧ (f.encoding.getLsbD 0 = true ↔ f = .equal) ∧
      (f.encoding.getLsbD 1 = true ↔ f = .greaterThan) ∧ (f.encoding.getLsbD 2 = true ↔ f = .lessThan) := by
  cases f <;> decide

/-- Settles O59, by cases on the flags and the kinds. -/
theorem hostVisibleCodes : Obligations.HostVisibleCodes :=
  ⟨flags_encoding_bits, rfl, fun _ _ => ⟨rfl, rfl⟩, fun _ => rfl, rfl, rfl, fun _ _ => rfl, fun _ _ => rfl, rfl⟩

/-- The register file as a list, `x[0]` first. -/
theorem regs_toList (s : State) : s.regs.toList = List.ofFn s.reg :=
  List.ext_getElem (by simp) fun k _ _ => by rw [List.getElem_ofFn]; rfl

/-- The trace reads the bytes a fetch would. -/
theorem trace_of_lt {s : State} (h : s.pc + 2 < Config.memSize) :
    s.trace = some
      ([BitVec.ofNat 8 s.pc, s.mem.read s.pc, s.mem.read (s.pc + 1), s.mem.read (s.pc + 2)] ++ List.ofFn s.reg) := by
  unfold State.trace
  rw [fetch_of_lt s h, ← regs_toList]

theorem trace_of_ge {s : State} (h : Config.memSize ≤ s.pc + 2) : s.trace = none := by
  unfold State.trace
  rw [fetch_of_ge s h]

/-- Settles O60, from the trace within and beyond the fetch's range. -/
theorem traceFields : Obligations.TraceFields := by
  intro s
  refine ⟨fun hpc => ⟨BitVec.ofNat 8 s.pc, ?_, trace_of_lt (fetch_in_range_iff.2 hpc)⟩,
    fun hpc => trace_of_ge (fetch_out_of_range_iff.2 hpc)⟩
  rw [BitVec.toNat_ofNat]; omega

end Sys2Proof.Machine
end
